-- ==== Sys2Proof/Word.lean ====
section
/-! DEFINITION. The FL516's two kinds of word (spec/00_scope.md R3): the 16-bit register, address and operand word,
and the 8-bit byte, which is the addressable unit. Also the 40-bit value of one whole instruction (R5). -/

namespace Sys2Proof

/-- A 16-bit value: a register, an address, an operand word (R3: XLEN = ALEN = 16). -/
abbrev Word := BitVec 16

/-- The addressable unit, an 8-bit byte (R3). -/
abbrev Byte := BitVec 8

/-- One instruction as the 40-bit value `instr` of R5: bits 39..32 are byte 0, bits 7..0 are byte 4. -/
abbrev Instr40 := BitVec 40

end Sys2Proof
end

