-- ==== Sys2Proof/Syntax.lean ====
section
/-! DEFINITION. The instructions of the FL516: one constructor for each of the 36 rows of the opcode table
(spec/30_encoding.md R55). An operand word keeps its whole 16 bits, a register index too, because R54 lets any value be
encoded and says what an index above 9 does. A word whose role is None is ignored (R53) and is not part of the term. -/

namespace Sys2Proof

/-- One of R0 to R9 (spec/10_state.md R10). -/
abbrev RegIdx := Fin 10

/-- R8, `MD`, which receives the remainder of a division (R12). -/
def RegIdx.md : RegIdx := 8

/-- R9, `SP`, the stack pointer (R13). -/
def RegIdx.sp : RegIdx := 9

/-- What an operand word stands for (spec/30_encoding.md R51). -/
inductive Role
  /-- A register index, valid for 0 to 9. -/
  | reg
  /-- The 16-bit constant itself. -/
  | immediate
  /-- The 16-bit byte address itself. -/
  | address
  /-- Not used by the instruction. -/
  | none
deriving DecidableEq, Repr

/-- The instructions. `d` is a destination register operand, `s` a source register operand, `imm` an immediate, `addr`
a data address and `target` a code address, each the operand word as it stands in the instruction. -/
inductive Instr
  | nop
  | mov (d s : Word)
  | ldi (d imm : Word)
  | ldm (d addr : Word)
  | sto (addr s : Word)
  | stoi (addr imm : Word)
  | blnk
  | add (d s : Word)
  | adi (d imm : Word)
  | sub (d s : Word)
  | subi (d imm : Word)
  | mul (d s : Word)
  | muli (d imm : Word)
  | div (d s : Word)
  | divi (d imm : Word)
  | and (d s : Word)
  | andi (d imm : Word)
  | or (d s : Word)
  | ori (d imm : Word)
  | xor (d s : Word)
  | xori (d imm : Word)
  | shr (d s : Word)
  | shri (d imm : Word)
  | shl (d s : Word)
  | shli (d imm : Word)
  | not (d : Word)
  | push (s : Word)
  | ipush (imm : Word)
  | pop (d : Word)
  | hlt
  | jmp (target : Word)
  | cmp (a b : Word)
  | ifeq (target : Word)
  | iflt (target : Word)
  | ifgt (target : Word)
  | dbgp
deriving DecidableEq, Repr

end Sys2Proof
end

