-- ==== Sys2Proof/Decode.lean ====
section
/-! DEFINITION. The instruction format and the opcode map of spec/30_encoding.md: the fields of the 40-bit value (R50),
byte order (spec/20_memory.md R31), the decoder, total on every 40-bit value (R55 to R59), the encoder, and the opcode
table as rows. -/

namespace Sys2Proof

/-! ### Bytes and words, big-endian (R31, R52) -/

/-- `v[15:8]`, the byte at the lower address. -/
def highByte (v : Word) : Byte := v.extractLsb' 8 8

/-- `v[7:0]`, the byte at the higher address. -/
def lowByte (v : Word) : Byte := v.extractLsb' 0 8

/-- `hi * 256 + lo` (R52). -/
def joinBytes (hi lo : Byte) : Word := hi ++ lo

/-! ### The fields of an instruction (R50) -/

/-- `instr[39:32]`. -/
def opcodeField (w : Instr40) : Byte := w.extractLsb' 32 8

/-- `op1 = instr[31:16]`. -/
def op1Field (w : Instr40) : Word := w.extractLsb' 16 16

/-- `op2 = instr[15:0]`. -/
def op2Field (w : Instr40) : Word := w.extractLsb' 0 16

/-- The 40-bit value with the three fields given. -/
def assemble (opcode : Byte) (op1 op2 : Word) : Instr40 := opcode ++ op1 ++ op2

/-- Five bytes, the first at the lowest address, as one 40-bit value (R5, spec/20_memory.md R34). -/
def joinFive (b0 b1 b2 b3 b4 : Byte) : Instr40 := b0 ++ b1 ++ b2 ++ b3 ++ b4

/-- The five bytes of an instruction as memory holds them, the opcode at the lowest address (R50). -/
def instrBytes (w : Instr40) : List Byte :=
  [w.extractLsb' 32 8, w.extractLsb' 24 8, w.extractLsb' 16 8, w.extractLsb' 8 8, w.extractLsb' 0 8]

/-! ### Decoding -/

/-- Why a 40-bit value is no instruction. -/
inductive DecodeError
  /-- R57: the opcode byte is one of the 220 the source does not define. -/
  | illegalOpcode (opcode : Byte)
deriving DecidableEq, Repr

/-- The opcode map of R55. The opcode alone decides; a word whose role is None is ignored (R53). -/
def decodeFields (opcode : Byte) (op1 op2 : Word) : Except DecodeError Instr :=
  match opcode.toNat with
  | 0x00 => .ok .nop
  | 0x01 => .ok (.mov op1 op2)
  | 0x02 => .ok (.ldi op1 op2)
  | 0x03 => .ok (.ldm op1 op2)
  | 0x04 => .ok (.sto op1 op2)
  | 0x05 => .ok (.stoi op1 op2)
  | 0x06 => .ok .blnk
  | 0x07 => .ok (.add op1 op2)
  | 0x08 => .ok (.adi op1 op2)
  | 0x09 => .ok (.sub op1 op2)
  | 0x0A => .ok (.subi op1 op2)
  | 0x0B => .ok (.mul op1 op2)
  | 0x0C => .ok (.muli op1 op2)
  | 0x0D => .ok (.div op1 op2)
  | 0x0E => .ok (.divi op1 op2)
  | 0x0F => .ok (.and op1 op2)
  | 0x10 => .ok (.andi op1 op2)
  | 0x11 => .ok (.or op1 op2)
  | 0x12 => .ok (.ori op1 op2)
  | 0x13 => .ok (.xor op1 op2)
  | 0x14 => .ok (.xori op1 op2)
  | 0x15 => .ok (.shr op1 op2)
  | 0x16 => .ok (.shri op1 op2)
  | 0x17 => .ok (.shl op1 op2)
  | 0x18 => .ok (.shli op1 op2)
  | 0x19 => .ok (.not op1)
  | 0x1A => .ok (.push op1)
  | 0x1B => .ok (.ipush op1)
  | 0x1C => .ok (.pop op1)
  | 0xF0 => .ok .hlt
  | 0xF1 => .ok (.jmp op1)
  | 0xF2 => .ok (.cmp op1 op2)
  | 0xF3 => .ok (.ifeq op1)
  | 0xF4 => .ok (.iflt op1)
  | 0xF5 => .ok (.ifgt op1)
  | 0xFF => .ok .dbgp
  | _ => .error (.illegalOpcode opcode)

/-- The decoder: total on every 40-bit value, refusing an undefined opcode by name. -/
def decode (w : Instr40) : Except DecodeError Instr :=
  decodeFields (opcodeField w) (op1Field w) (op2Field w)

/-! ### Encoding -/

/-- The opcode byte of an instruction (R55). -/
def Instr.opcode : Instr → Byte
  | .nop => 0x00
  | .mov _ _ => 0x01
  | .ldi _ _ => 0x02
  | .ldm _ _ => 0x03
  | .sto _ _ => 0x04
  | .stoi _ _ => 0x05
  | .blnk => 0x06
  | .add _ _ => 0x07
  | .adi _ _ => 0x08
  | .sub _ _ => 0x09
  | .subi _ _ => 0x0A
  | .mul _ _ => 0x0B
  | .muli _ _ => 0x0C
  | .div _ _ => 0x0D
  | .divi _ _ => 0x0E
  | .and _ _ => 0x0F
  | .andi _ _ => 0x10
  | .or _ _ => 0x11
  | .ori _ _ => 0x12
  | .xor _ _ => 0x13
  | .xori _ _ => 0x14
  | .shr _ _ => 0x15
  | .shri _ _ => 0x16
  | .shl _ _ => 0x17
  | .shli _ _ => 0x18
  | .not _ => 0x19
  | .push _ => 0x1A
  | .ipush _ => 0x1B
  | .pop _ => 0x1C
  | .hlt => 0xF0
  | .jmp _ => 0xF1
  | .cmp _ _ => 0xF2
  | .ifeq _ => 0xF3
  | .iflt _ => 0xF4
  | .ifgt _ => 0xF5
  | .dbgp => 0xFF

/-- The two operand words of an instruction, a word whose role is None as 0x0000, which is what an assembler emits
(R53). -/
def Instr.operands : Instr → Word × Word
  | .nop => (0, 0)
  | .mov d s => (d, s)
  | .ldi d imm => (d, imm)
  | .ldm d addr => (d, addr)
  | .sto addr s => (addr, s)
  | .stoi addr imm => (addr, imm)
  | .blnk => (0, 0)
  | .add d s => (d, s)
  | .adi d imm => (d, imm)
  | .sub d s => (d, s)
  | .subi d imm => (d, imm)
  | .mul d s => (d, s)
  | .muli d imm => (d, imm)
  | .div d s => (d, s)
  | .divi d imm => (d, imm)
  | .and d s => (d, s)
  | .andi d imm => (d, imm)
  | .or d s => (d, s)
  | .ori d imm => (d, imm)
  | .xor d s => (d, s)
  | .xori d imm => (d, imm)
  | .shr d s => (d, s)
  | .shri d imm => (d, imm)
  | .shl d s => (d, s)
  | .shli d imm => (d, imm)
  | .not d => (d, 0)
  | .push s => (s, 0)
  | .ipush imm => (imm, 0)
  | .pop d => (d, 0)
  | .hlt => (0, 0)
  | .jmp target => (target, 0)
  | .cmp a b => (a, b)
  | .ifeq target => (target, 0)
  | .iflt target => (target, 0)
  | .ifgt target => (target, 0)
  | .dbgp => (0, 0)

/-- The encoder: the 40-bit value of an instruction (R50, R55). -/
def encode (i : Instr) : Instr40 :=
  assemble i.opcode i.operands.1 i.operands.2

/-- The bits of an instruction that mean something: the opcode byte and every operand word whose role is not None
(R53, R55). -/
def Instr.usedBits : Instr → Instr40
  | .nop | .blnk | .hlt | .dbgp => 0xFF00000000
  | .not _ | .push _ | .ipush _ | .pop _ | .jmp _ | .ifeq _ | .iflt _ | .ifgt _ => 0xFFFFFF0000
  | .mov _ _ | .ldi _ _ | .ldm _ _ | .sto _ _ | .stoi _ _ | .add _ _ | .adi _ _ | .sub _ _ | .subi _ _ | .mul _ _
  | .muli _ _ | .div _ _ | .divi _ _ | .and _ _ | .andi _ _ | .or _ _ | .ori _ _ | .xor _ _ | .xori _ _ | .shr _ _
  | .shri _ _ | .shl _ _ | .shli _ _ | .cmp _ _ => 0xFFFFFFFFFF

/-! ### The opcode table's numbering -/

/-- The 40-bit value of the instruction whose first `nbits` bits are `w`. spec/opcode_table.json numbers the 40 bits of
a row as R5 does, byte 0 in bits 39..32, so for its width of 40 bits this is `w` itself; a shorter `w` is the
instruction's leading bits, the operand bits after it being 0. Log entry 24. -/
def tableInstr (nbits w : Nat) : Instr40 :=
  BitVec.ofNat 40 ((w % 2 ^ nbits) * 2 ^ (40 - nbits))

/-- The instruction the decoder reads from an instruction whose bits are `w`, numbered as spec/opcode_table.json numbers
them; `none` where the decoder refuses. -/
def decodeTableWord (nbits w : Nat) : Option Instr :=
  match decode (tableInstr nbits w) with
  | .ok i => some i
  | .error _ => none

end Sys2Proof
end

