-- ==== Sys2Proof/Machine/Flags.lean ====
section
/-! DEFINITION. Every flag condition the spec gives (spec/41_arith_bitwise.md R82, R83, R86 to R93,
spec/43_flow_controls.md R123), each as the rule's pseudocode writes it, on exact integers. -/

namespace Sys2Proof.Machine

/-- `r = 0`. -/
def isZero (r : Word) : Bool := decide (r.toNat = 0)

/-- Carry out of an addition: `a + b > 0xFFFF` (R82). -/
def addCarry (a b : Word) : Bool := decide (0xFFFF < a.toNat + b.toNat)

/-- Signed overflow of an addition with result `r`: `a[15] = b[15] and r[15] != a[15]` (R83). -/
def addOverflow (a b r : Word) : Bool := decide (a.getLsbD 15 = b.getLsbD 15 ∧ r.getLsbD 15 ≠ a.getLsbD 15)

/-- Borrow of a subtraction, and CMP's less-than: `a < b`, unsigned (R82, R123). -/
def borrow (a b : Word) : Bool := decide (a.toNat < b.toNat)

/-- Signed overflow of a subtraction with result `r`: `a[15] != b[15] and r[15] != a[15]` (R83). -/
def subOverflow (a b r : Word) : Bool := decide (a.getLsbD 15 ≠ b.getLsbD 15 ∧ r.getLsbD 15 ≠ a.getLsbD 15)

/-- The exact unsigned product does not fit 16 bits: `p > 0xFFFF` (R90). -/
def mulOverflow (a b : Word) : Bool := decide (0xFFFF < a.toNat * b.toNat)

/-- CMP's equality: `a = b` (R123). -/
def same (a b : Word) : Bool := decide (a = b)

end Sys2Proof.Machine
end

