-- ==== Sys2Proof/Config.lean ====
section
/-! DEFINITION. What is fixed for one FL516 and never changes as it runs: the memory size, and the open parameters of
spec/00_scope.md R4 as free values. A free value has no body, so no proof can know what it is. -/

namespace Sys2Proof

/-- `MEMSIZE` of R3: 65,536 bytes, addressed 0x0000 to 0xFFFF. -/
def Config.memSize : Nat := 65536

/-- `MULDIV_ZC` of R4 for ZFL (R105): what ZFL holds after a multiply or a divide is unspecified. A FREE VALUE, drawn
afresh each time (`draw` is the count of draws so far). It is also given everything the readings R105 lists could use
(the opcode, the two source values, the old ZFL and CFL), so that two different instructions, operands or old flags
need not give the same value. Log entry 7. -/
opaque Config.mulDivZfl (draw : Nat) (opcode : Byte) (a b : Word) (zfl cfl : Bool) : Bool

/-- `MULDIV_ZC` of R4 for CFL (R105): as `Config.mulDivZfl`, for CFL. A FREE VALUE. Log entry 7. -/
opaque Config.mulDivCfl (draw : Nat) (opcode : Byte) (a b : Word) (zfl cfl : Bool) : Bool

/-- `DIV0_RESULT(a, m)` of R4 (R106): the pair (destination register, R8) after a division of `a` by zero when R8 held
`m` before. A FREE VALUE, a function of the dividend and the old R8, as R106 says. Log entry 8. -/
opaque Config.div0Result (a m : Word) : Word × Word

/-- The host's decision whether to resume a paused CPU, which spec/10_state.md R19 makes a parameter of the step: a
FREE VALUE, asked once in each step the CPU spends paused. DESIGN CHOICE, unsafe: it depends on the count of draws alone.
spec/70_reset_and_hazards.md R164 lets a paused host read any state and does not say what its decision may rest on; here
two runs that differ only in, say, OFL are resumed alike. Log entry 19. -/
opaque Config.hostResumes (draw : Nat) : Bool

end Sys2Proof
end

