-- ==== Sys2Proof/Machine/State.lean ====
section
/-! DEFINITION. The whole architectural state of an FL516 (spec/10_state.md R19), the reasons it can stop
(spec/60_exceptions.md R141), the state after reset (R20), and the open parameters of a launch (R4, R161). -/

namespace Sys2Proof.Machine

/-- The run state the spec adds (R17). -/
inductive RunState
  /-- The CPU performs the fetch-execute step. -/
  | running
  /-- After HLT: no step, no state changes until reset. -/
  | halted
  /-- After DBGP: no step until the host resumes. -/
  | paused
deriving DecidableEq, Repr

/-- Memory: (address, byte) pairs in one canonical form, `Memory.wf`. -/
abbrev Memory := List Host.Cell

/-- What an address that the list does not name reads as. The spec leaves the reset contents of memory open
(`RESET_MEM`, R4, R20); DESIGN CHOICE, unsafe, log entry 3. -/
def unlistedByte : Byte := 0x00

/-- The canonical form: addresses strictly rising and below 65,536, and no entry equal to what an unlisted address
reads as. -/
abbrev Memory.wf (m : Memory) : Prop :=
  m.Pairwise (fun c c' => c.1 < c'.1) ∧ ∀ c ∈ m, c.1 < Config.memSize ∧ c.2 ≠ unlistedByte

/-- The state (R19). `draws` is the MODEL's own field, the count of free values drawn (log entry 7); every other field
is the spec's. -/
structure State where
  /-- R0 to R9 (R10 to R13). -/
  regs : Vector Word 10
  /-- The program counter (R14). -/
  pc : Word
  /-- The zero flag (R15). -/
  zfl : Bool
  /-- The carry and borrow flag (R15). -/
  cfl : Bool
  /-- The overflow flag (R15, R16). -/
  ofl : Bool
  /-- The 65,536 bytes of memory (R18). -/
  mem : Memory
  /-- The run state (R17). -/
  run : RunState
  /-- How many free values have been drawn. -/
  draws : Nat
deriving DecidableEq, Repr

/-- The four model stops of spec/60_exceptions.md R141. The spec raises each where the source gives the hardware no
defined behaviour; the state is the one before the instruction (R142). Each is SAFE: nothing can be proved through it. -/
inductive Fault
  /-- Raised by the decode stage of a step, for an opcode byte in 0x1D to 0xEF or 0xF6 to 0xFE (R57). Safe. -/
  | illegalOpcode (opcode : Byte)
  /-- Raised by every instruction with a register operand, for an operand word above 9 (R54). Safe. -/
  | invalidRegister (w : Word)
  /-- Raised by JMP, and by IFEQ, IFLT and IFGT when taken, for a target that is no multiple of 5 (R127). Safe. -/
  | misalignedJump (target : Word)
  /-- Raised by POP when R9 + 2 > 0xFFFF (R114). Safe. -/
  | stackUnderflow (sp : Word)
deriving DecidableEq, Repr

/-- Why an instruction has no meaning in the model. -/
inductive Refusal
  /-- Raised by an arm of `exec` whose instruction has no meaning yet: by no arm now. Safe. -/
  | notModelled (mnemonic : String)
deriving DecidableEq, Repr

/-- The machine right after reset (R20): pc 0x0000, R9 0xFFFF, Running, as the spec says. The spec states no reset value
for R0 to R8 and the flags: 0x0000 and FALSE are DESIGN CHOICES (log entries 1 and 2, unsafe); memory has nothing
listed (log entry 3). `State.launch` is the same reset with those values left open. -/
def State.reset : State where
  regs := #v[0x0000, 0x0000, 0x0000, 0x0000, 0x0000, 0x0000, 0x0000, 0x0000, 0x0000, 0xFFFF]
  pc := 0x0000
  zfl := false
  cfl := false
  ofl := false
  mem := []
  run := .running
  draws := 0

/-- What the spec leaves open of the state a run is launched in (R4: `RESET_REGS`, `RESET_FLAGS`, `RESET_MEM`), and the
image the host loads (R161). -/
structure Launch where
  /-- R0 to R8. -/
  regs0to8 : Vector Word 9
  zfl : Bool
  cfl : Bool
  ofl : Bool
  /-- What memory holds outside the image. -/
  memBefore : Memory
  /-- The bytes the host loads from 0x0000 upward; at most 65,536 of them. -/
  image : List Byte
  /-- The model's own counter of free values. -/
  draws : Nat
deriving DecidableEq, Repr

end Sys2Proof.Machine
end

