-- ==== Sys2Proof/Machine/Ops.lean ====
section
/-! DEFINITION. The named operations over registers, the program counter, flags, memory, the stack, control transfer
and the run state, in the primitives of spec/00_scope.md R6; the model stop; the launch. -/

namespace Sys2Proof.Machine

/-- What running an instruction answers. -/
abbrev Result := Host.Outcome State Fault Refusal

/-! ### Model stops -/

/-- `raise <Stop>(info)` (R142): the instruction changes nothing and the machine takes no further step. This is all the
FL516 has in place of exceptions: nothing is saved, there is no vector and no return (R140, R145). -/
def raise (f : Fault) : Result := .fault f

/-- The model stop for a value that is no instruction (R57). -/
def raiseDecodeError : DecodeError → Result
  | .illegalOpcode opcode => raise (.illegalOpcode opcode)

/-! ### Registers, program counter, flags -/

/-- `x[i]`. -/
def State.reg (s : State) (r : RegIdx) : Word := s.regs[r.val]

/-- `x[i] <- v`. No register is hardwired (R10). -/
def State.setReg (s : State) (r : RegIdx) (v : Word) : State :=
  { s with regs := s.regs.set r.val v }

/-- `pc <- v`. -/
def State.setPc (s : State) (v : Word) : State := { s with pc := v }

/-- `pc <- (pc + 5) mod 65536`: the end of every instruction but a taken jump and HLT (R14). -/
def State.advance (s : State) : State := s.setPc (s.pc + 5)

/-- `run <- r`. -/
def State.setRun (s : State) (r : RunState) : State := { s with run := r }

/-- Write ZFL and CFL. A flag write is an assignment (R85). -/
def State.setZC (s : State) (z c : Bool) : State := { s with zfl := z, cfl := c }

/-- Write OFL. -/
def State.setOfl (s : State) (o : Bool) : State := { s with ofl := o }

/-- Count one more draw of free values. -/
def State.tick (s : State) : State := { s with draws := s.draws + 1 }

/-! ### Memory -/

/-- The byte at an address. -/
def Memory.read : Memory → Nat → Byte
  | [], _ => unlistedByte
  | (k, v) :: m, a => if k = a then v else Memory.read m a

/-- Take an address out of the list. -/
def Memory.erase : Memory → Nat → Memory
  | [], _ => []
  | (k, v) :: m, a => if k = a then Memory.erase m a else (k, v) :: Memory.erase m a

/-- Put an entry at its place in the rising order. -/
def Memory.insert : Memory → Nat → Byte → Memory
  | [], a, b => [(a, b)]
  | (k, v) :: m, a, b => if a < k then (a, b) :: (k, v) :: m else (k, v) :: Memory.insert m a b

/-- Write the byte at an address, keeping the canonical form: a byte equal to what an unlisted address reads as is not
listed. -/
def Memory.write (m : Memory) (a : Nat) (b : Byte) : Memory :=
  if b = unlistedByte then Memory.erase m a else Memory.insert (Memory.erase m a) a b

/-- `mem[a]`, that is `MemRead(a, 1)` (spec/20_memory.md R32). -/
def State.byte (s : State) (a : Word) : Byte := Memory.read s.mem a.toNat

/-- `mem[a] <- b`, that is `MemWrite(a, 1, b)` (R33). -/
def State.setByte (s : State) (a : Word) (b : Byte) : State :=
  { s with mem := Memory.write s.mem a.toNat b }

/-- `MemRead(a, 2)`: big-endian, the second byte's address modulo 65536 (R32, R35). -/
def State.read16 (s : State) (a : Word) : Word := joinBytes (s.byte a) (s.byte (a + 1))

/-- `MemWrite(a, 2, v)`: the high byte at `a`, then the low byte at `(a + 1) mod 65536` (R33, R35). -/
def State.write16 (s : State) (a v : Word) : State :=
  (s.setByte a (highByte v)).setByte (a + 1) (lowByte v)

/-- Bytes at consecutive addresses from `a` upward, modulo 65536. -/
def State.loadBytes (s : State) (a : Word) : List Byte → State
  | [] => s
  | b :: bs => (s.setByte a b).loadBytes (a + 1) bs

/-- `Fetch(pc)`: the 40-bit value of the five bytes at pc, every address modulo 65536 (R34, R35). -/
def fetch (s : State) : Instr40 :=
  joinFive (s.byte s.pc) (s.byte (s.pc + 1)) (s.byte (s.pc + 2)) (s.byte (s.pc + 3)) (s.byte (s.pc + 4))

/-! ### The stack (spec/42_stack.md R110) -/

/-- `STACK_BIAS` of R4: how far below the old SP a push writes its value. The spec decides 1 (D5); log entry 5. -/
def stackBias : Word := 1

/-- `(x[9] - STACK_BIAS) mod 65536`, with x[9] as it is before the push. -/
def pushSlot (s : State) : Word := s.reg .sp - stackBias

/-- `(x[9] + 2 - STACK_BIAS) mod 65536`, with x[9] as it is before the pop. -/
def popSlot (s : State) : Word := s.reg .sp + 2 - stackBias

/-- Store `v` in the push slot, then SP goes down by 2 (R111, R112). -/
def pushWord (v : Word) (s : State) : State :=
  (s.write16 (pushSlot s) v).setReg .sp (s.reg .sp - 2)

/-- R114: the stack is empty, or the pop would carry SP above 0xFFFF. -/
def popUnderflows (s : State) : Bool := decide (0xFFFF < (s.reg .sp).toNat + 2)

/-- Load the pop slot into a register, then SP goes up by 2; into R9 itself, the later write remains (R113, R7). -/
def popInto (d : RegIdx) (s : State) : State :=
  (s.setReg d (s.read16 (popSlot s))).setReg .sp (s.reg .sp + 2)

/-! ### Control transfer (spec/43_flow_controls.md R120, R127) -/

/-- A taken jump: `pc <- target`, or the model stop when the target is no multiple of 5. -/
def takeJump (target : Word) (s : State) : Result :=
  if target.toNat % 5 = 0 then .next (s.setPc target) else raise (.misalignedJump target)

/-- A conditional jump: a target that is not taken is not examined (R127). -/
def branch (taken : Bool) (target : Word) (s : State) : Result :=
  if taken then takeJump target s else .next s.advance

/-! ### Outside `Running` (spec/10_state.md R17) -/

/-- In `Halted` no state changes until reset. Log entry 18. -/
def haltedStep (s : State) : Result := .next s

/-- The host resumes a paused CPU: `run <- Running` and nothing else (R17, spec/70_reset_and_hazards.md R164). -/
def State.resume (s : State) : State := s.setRun .running

/-- In `Paused` no instruction runs; the host resumes now or not, as it decides. Log entry 19. -/
def pausedStep (s : State) : Result :=
  .next (if Config.hostResumes s.draws then s.resume.tick else s.tick)

/-! ### Launch (spec/70_reset_and_hazards.md R160, R161) -/

/-- The state after reset with everything the spec leaves open given by `l`: pc 0x0000, R9 0xFFFF, Running, and the
image loaded from 0x0000 upward. -/
def State.launch (l : Launch) : State :=
  State.loadBytes
    { regs := l.regs0to8.push 0xFFFF, pc := 0x0000, zfl := l.zfl, cfl := l.cfl, ofl := l.ofl, mem := l.memBefore,
      run := .running, draws := l.draws }
    0x0000 l.image

end Sys2Proof.Machine
end

