-- ==== Sys2Proof/Machine/Operands.lean ====
section
/-! DEFINITION. The operand forms of the FL516 (spec/30_encoding.md R51). A register index goes through `withReg`, the one
place of the InvalidRegister stop; an immediate and an address are the operand word itself (R52); a word whose role is
None never reaches a meaning (R53). -/

namespace Sys2Proof.Machine

/-- `reg(w)`: the register an operand word names, if it is 0 to 9 (R54). -/
def regIndex (w : Word) : Option RegIdx :=
  if h : w.toNat < 10 then some ⟨w.toNat, h⟩ else none

/-- Go on with the register `w` names, or raise InvalidRegister (R54). -/
def withReg (w : Word) (k : RegIdx → Result) : Result :=
  match regIndex w with
  | some r => k r
  | none => raise (.invalidRegister w)

/-- Two register operands, op1 checked before op2 (R54, spec/60_exceptions.md R144). -/
def withRegs (w1 w2 : Word) (k : RegIdx → RegIdx → Result) : Result :=
  withReg w1 fun r1 => withReg w2 fun r2 => k r1 r2

end Sys2Proof.Machine
end

