-- ==== Sys2Proof/Machine/Arith.lean ====
section
/-! DEFINITION. The arithmetic instructions (spec/41_arith_bitwise.md R86 to R93). The two forms of a pair differ only in
where the second source value comes from (R80), so each pair has one operation `…Into` over it. -/

namespace Sys2Proof.Machine

/-- `x[d] <- x[d] + b` with ZFL, CFL and OFL (R86, R87). -/
def addInto (d : RegIdx) (b : Word) (st : State) : State :=
  let a := st.reg d
  let r := a + b
  (((st.setReg d r).setZC (isZero r) (addCarry a b)).setOfl (addOverflow a b r)).advance

/-- `x[d] <- x[d] - b` with ZFL, CFL and OFL (R88, R89). -/
def subInto (d : RegIdx) (b : Word) (st : State) : State :=
  let a := st.reg d
  let r := a - b
  (((st.setReg d r).setZC (isZero r) (borrow a b)).setOfl (subOverflow a b r)).advance

/-- ZFL and CFL after a multiply or divide of `a` and `b`: free values (`MULDIV_ZC`, R105). -/
def drawMulDivZC (opcode : Byte) (a b : Word) (st : State) : State :=
  (st.setZC (Config.mulDivZfl st.draws opcode a b st.zfl st.cfl)
    (Config.mulDivCfl st.draws opcode a b st.zfl st.cfl)).tick

/-- `x[d] <- x[d] * b`, the low 16 bits of the unsigned product, with OFL (R90, R91). -/
def mulInto (opcode : Byte) (d : RegIdx) (b : Word) (st : State) : State :=
  let a := st.reg d
  ((drawMulDivZC opcode a b (st.setReg d (a * b))).setOfl (mulOverflow a b)).advance

/-- Quotient and remainder of the unsigned division of `a` by `b`, R8 holding `m` before; for a zero divisor the free
pair `DIV0_RESULT(a, m)` (R92, R106). -/
def divResult (a b m : Word) : Word × Word :=
  if b = 0 then Config.div0Result a m else (a / b, a % b)

/-- `x[d] <- quotient`, then `x[8] <- remainder`, the later write remaining when `d` is R8; OFL tells a zero divisor
(R92, R93). -/
def divInto (opcode : Byte) (d : RegIdx) (b : Word) (st : State) : State :=
  let a := st.reg d
  let qt := divResult a b (st.reg .md)
  ((drawMulDivZC opcode a b ((st.setReg d qt.1).setReg .md qt.2)).setOfl (isZero b)).advance

/-- ADD (R86). -/
def execAdd (d s : Word) (st : State) : Result :=
  withRegs d s fun rd rs => .next (addInto rd (st.reg rs) st)

/-- ADI (R87). -/
def execAdi (d imm : Word) (st : State) : Result :=
  withReg d fun rd => .next (addInto rd imm st)

/-- SUB (R88). -/
def execSub (d s : Word) (st : State) : Result :=
  withRegs d s fun rd rs => .next (subInto rd (st.reg rs) st)

/-- SUBI (R89). -/
def execSubi (d imm : Word) (st : State) : Result :=
  withReg d fun rd => .next (subInto rd imm st)

/-- MUL (R90). -/
def execMul (d s : Word) (st : State) : Result :=
  withRegs d s fun rd rs => .next (mulInto 0x0B rd (st.reg rs) st)

/-- MULI (R91). -/
def execMuli (d imm : Word) (st : State) : Result :=
  withReg d fun rd => .next (mulInto 0x0C rd imm st)

/-- DIV (R92). -/
def execDiv (d s : Word) (st : State) : Result :=
  withRegs d s fun rd rs => .next (divInto 0x0D rd (st.reg rs) st)

/-- DIVI (R93). -/
def execDivi (d imm : Word) (st : State) : Result :=
  withReg d fun rd => .next (divInto 0x0E rd imm st)

end Sys2Proof.Machine
end

