-- ==== Sys2Proof/Machine/Bitwise.lean ====
section
/-! DEFINITION. The bitwise, shift and complement instructions (spec/41_arith_bitwise.md R94 to R104). None writes a flag
(R84). -/

namespace Sys2Proof.Machine

/-- `x[d] <- f(x[d], b)` and nothing else but pc. -/
def combineInto (f : Word → Word → Word) (d : RegIdx) (b : Word) (st : State) : State :=
  (st.setReg d (f (st.reg d) b)).advance

/-- `SHIFT_OVER` of R4: the result of a shift by 16 or more. The spec decides 0x0000 (D14); log entry 9. -/
def shiftOver : Word := 0x0000

/-- `if n >= 16 then 0 else a div 2^n`: logical, the count being the whole word (R100, R101). -/
def shiftRight (a n : Word) : Word := if 16 ≤ n.toNat then shiftOver else a >>> n.toNat

/-- `if n >= 16 then 0 else (a * 2^n) mod 65536` (R102, R103). -/
def shiftLeft (a n : Word) : Word := if 16 ≤ n.toNat then shiftOver else a <<< n.toNat

/-- AND (R94). -/
def execAnd (d s : Word) (st : State) : Result :=
  withRegs d s fun rd rs => .next (combineInto (· &&& ·) rd (st.reg rs) st)

/-- ANDI (R95). -/
def execAndi (d imm : Word) (st : State) : Result :=
  withReg d fun rd => .next (combineInto (· &&& ·) rd imm st)

/-- OR (R96). -/
def execOr (d s : Word) (st : State) : Result :=
  withRegs d s fun rd rs => .next (combineInto (· ||| ·) rd (st.reg rs) st)

/-- ORI (R97). -/
def execOri (d imm : Word) (st : State) : Result :=
  withReg d fun rd => .next (combineInto (· ||| ·) rd imm st)

/-- XOR (R98). -/
def execXor (d s : Word) (st : State) : Result :=
  withRegs d s fun rd rs => .next (combineInto (· ^^^ ·) rd (st.reg rs) st)

/-- XORI (R99). -/
def execXori (d imm : Word) (st : State) : Result :=
  withReg d fun rd => .next (combineInto (· ^^^ ·) rd imm st)

/-- SHR (R100). -/
def execShr (d s : Word) (st : State) : Result :=
  withRegs d s fun rd rs => .next (combineInto shiftRight rd (st.reg rs) st)

/-- SHRI (R101). -/
def execShri (d imm : Word) (st : State) : Result :=
  withReg d fun rd => .next (combineInto shiftRight rd imm st)

/-- SHL (R102). -/
def execShl (d s : Word) (st : State) : Result :=
  withRegs d s fun rd rs => .next (combineInto shiftLeft rd (st.reg rs) st)

/-- SHLI (R103). -/
def execShli (d imm : Word) (st : State) : Result :=
  withReg d fun rd => .next (combineInto shiftLeft rd imm st)

/-- NOT (R104): every bit inverted. -/
def execNot (d : Word) (st : State) : Result :=
  withReg d fun rd => .next (combineInto (· ^^^ ·) rd 0xFFFF st)

end Sys2Proof.Machine
end

