-- ==== Sys2Proof/Machine/DataControls.lean ====
section
/-! DEFINITION. The data control instructions (spec/40_data_controls.md). None reads or writes a flag (R84). -/

namespace Sys2Proof.Machine

/-- NOP (R70). -/
def execNop (st : State) : Result := .next st.advance

/-- MOV (R71). -/
def execMov (d s : Word) (st : State) : Result :=
  withRegs d s fun rd rs => .next (st.setReg rd (st.reg rs)).advance

/-- LDI (R72). -/
def execLdi (d imm : Word) (st : State) : Result :=
  withReg d fun rd => .next (st.setReg rd imm).advance

/-- LDM (R73). -/
def execLdm (d addr : Word) (st : State) : Result :=
  withReg d fun rd => .next (st.setReg rd (st.read16 addr)).advance

/-- STO (R74). -/
def execSto (addr s : Word) (st : State) : Result :=
  withReg s fun rs => .next (st.write16 addr (st.reg rs)).advance

/-- STOI (R75). -/
def execStoi (addr imm : Word) (st : State) : Result := .next (st.write16 addr imm).advance

/-- BLNK (R76): reserved, acts as NOP. -/
def execBlnk (st : State) : Result := .next st.advance

end Sys2Proof.Machine
end

