-- ==== Sys2Proof/Machine/FlowControls.lean ====
section
/-! DEFINITION. The flow control instructions (spec/43_flow_controls.md R121 to R128). -/

namespace Sys2Proof.Machine

/-- HLT (R121): pc keeps the address of the HLT. -/
def execHlt (st : State) : Result := .next (st.setRun .halted)

/-- JMP (R122). -/
def execJmp (target : Word) (st : State) : Result := takeJump target st

/-- CMP (R123): ZFL and CFL; OFL and the registers are not written. -/
def execCmp (a b : Word) (st : State) : Result :=
  withRegs a b fun ra rb =>
    .next (st.setZC (same (st.reg ra) (st.reg rb)) (borrow (st.reg ra) (st.reg rb))).advance

/-- IFEQ (R124): taken if ZFL is TRUE. -/
def execIfeq (target : Word) (st : State) : Result := branch st.zfl target st

/-- IFLT (R125): taken if CFL is TRUE. -/
def execIflt (target : Word) (st : State) : Result := branch st.cfl target st

/-- IFGT (R126): taken if CFL is FALSE, ZFL not consulted. -/
def execIfgt (target : Word) (st : State) : Result := branch (!st.cfl) target st

/-- DBGP (R128): pauses, and pc advances. -/
def execDbgp (st : State) : Result := .next (st.setRun .paused).advance

end Sys2Proof.Machine
end

