-- ==== Sys2Proof/Machine/Stack.lean ====
section
/-! DEFINITION. The stack instructions (spec/42_stack.md R111 to R115). None reads or writes a flag (R84); a push checks
nothing (R115). -/

namespace Sys2Proof.Machine

/-- PUSH (R111): of R9 itself, the value R9 had before. -/
def execPush (s : Word) (st : State) : Result :=
  withReg s fun rs => .next (pushWord (st.reg rs) st).advance

/-- IPUSH (R112). -/
def execIpush (imm : Word) (st : State) : Result := .next (pushWord imm st).advance

/-- POP (R113): the register check first, then the underflow check (R144). -/
def execPop (d : Word) (st : State) : Result :=
  withReg d fun rd =>
    if popUnderflows st then raise (.stackUnderflow (st.reg .sp)) else .next (popInto rd st).advance

end Sys2Proof.Machine
end

