-- ==== Sys2Proof/Machine/Dispatch.lean ====
section
/-! DEFINITION. Which meaning each instruction has: one arm per constructor of Instr (spec/30_encoding.md R55, R56). -/

namespace Sys2Proof.Machine

def exec (i : Instr) (s : State) : Host.Outcome State Fault Refusal :=
  match i with
  -- data controls
  | .nop => Sys2Proof.Machine.execNop s
  | .mov d r => Sys2Proof.Machine.execMov d r s
  | .ldi d imm => Sys2Proof.Machine.execLdi d imm s
  | .ldm d addr => Sys2Proof.Machine.execLdm d addr s
  | .sto addr r => Sys2Proof.Machine.execSto addr r s
  | .stoi addr imm => Sys2Proof.Machine.execStoi addr imm s
  | .blnk => Sys2Proof.Machine.execBlnk s
  -- arithmetic
  | .add d r => Sys2Proof.Machine.execAdd d r s
  | .adi d imm => Sys2Proof.Machine.execAdi d imm s
  | .sub d r => Sys2Proof.Machine.execSub d r s
  | .subi d imm => Sys2Proof.Machine.execSubi d imm s
  | .mul d r => Sys2Proof.Machine.execMul d r s
  | .muli d imm => Sys2Proof.Machine.execMuli d imm s
  | .div d r => Sys2Proof.Machine.execDiv d r s
  | .divi d imm => Sys2Proof.Machine.execDivi d imm s
  -- bitwise and shifts
  | .and d r => Sys2Proof.Machine.execAnd d r s
  | .andi d imm => Sys2Proof.Machine.execAndi d imm s
  | .or d r => Sys2Proof.Machine.execOr d r s
  | .ori d imm => Sys2Proof.Machine.execOri d imm s
  | .xor d r => Sys2Proof.Machine.execXor d r s
  | .xori d imm => Sys2Proof.Machine.execXori d imm s
  | .shr d r => Sys2Proof.Machine.execShr d r s
  | .shri d imm => Sys2Proof.Machine.execShri d imm s
  | .shl d r => Sys2Proof.Machine.execShl d r s
  | .shli d imm => Sys2Proof.Machine.execShli d imm s
  | .not d => Sys2Proof.Machine.execNot d s
  -- stack
  | .push r => Sys2Proof.Machine.execPush r s
  | .ipush imm => Sys2Proof.Machine.execIpush imm s
  | .pop d => Sys2Proof.Machine.execPop d s
  -- flow controls
  | .hlt => Sys2Proof.Machine.execHlt s
  | .jmp target => Sys2Proof.Machine.execJmp target s
  | .cmp a b => Sys2Proof.Machine.execCmp a b s
  | .ifeq target => Sys2Proof.Machine.execIfeq target s
  | .iflt target => Sys2Proof.Machine.execIflt target s
  | .ifgt target => Sys2Proof.Machine.execIfgt target s
  | .dbgp => Sys2Proof.Machine.execDbgp s

end Sys2Proof.Machine
end

