-- ==== Sys2Proof/Machine/Step.lean ====
section
/-! DEFINITION. One step of the machine (spec/30_encoding.md R56): fetch the five bytes at pc, decode, execute. It only
calls what Ops, Decode and Dispatch define. -/

namespace Sys2Proof.Machine

/-- The five stages of R56 for a CPU that is Running. -/
def runStep (s : State) : Host.Outcome State Fault Refusal :=
  match decode (fetch s) with
  | .ok i => exec i s
  | .error e => raiseDecodeError e

/-- One step. -/
def step (s : State) : Host.Outcome State Fault Refusal :=
  match s.run with
  | .running => runStep s
  | .halted => haltedStep s
  | .paused => pausedStep s

/-- `s` with the instruction whose bits are `w`, numbered as the opcode table numbers them, stored at pc, where `step`
fetches, and the CPU Running, as the fetch needs. Log entries 20 and 24. -/
def State.withFetchWord (s : State) (nbits w : Nat) : State :=
  (s.loadBytes s.pc (instrBytes (tableInstr nbits w))).setRun .running

end Sys2Proof.Machine
end

