-- ==== Sys2Proof/Machine/Assembler.lean ====
section
/-! DEFINITION. The opcode table of spec/30_encoding.md R55 as rows, and the one assembler line form the spec gives
(R60): a mnemonic, two words of four hexadecimal digits, and a comment after `;`. No labels, directives or
pseudo-instructions (R60, R61). Nothing in the step uses this file. -/

namespace Sys2Proof.Machine

/-- One row of R55. -/
structure OpcodeRow where
  mnemonic : String
  opcode : Byte
  op1 : Role
  op2 : Role
deriving DecidableEq, Repr

/-- The rows of the data controls. -/
def dataControlRows : List OpcodeRow :=
  [⟨"NOP", 0x00, .none, .none⟩, ⟨"MOV", 0x01, .reg, .reg⟩, ⟨"LDI", 0x02, .reg, .immediate⟩,
   ⟨"LDM", 0x03, .reg, .address⟩, ⟨"STO", 0x04, .address, .reg⟩, ⟨"STOI", 0x05, .address, .immediate⟩,
   ⟨"BLNK", 0x06, .none, .none⟩]

/-- The rows of the arithmetic instructions. -/
def arithRows : List OpcodeRow :=
  [⟨"ADD", 0x07, .reg, .reg⟩, ⟨"ADI", 0x08, .reg, .immediate⟩, ⟨"SUB", 0x09, .reg, .reg⟩,
   ⟨"SUBI", 0x0A, .reg, .immediate⟩, ⟨"MUL", 0x0B, .reg, .reg⟩, ⟨"MULI", 0x0C, .reg, .immediate⟩,
   ⟨"DIV", 0x0D, .reg, .reg⟩, ⟨"DIVI", 0x0E, .reg, .immediate⟩]

/-- The rows of the bitwise, shift and complement instructions. -/
def bitwiseRows : List OpcodeRow :=
  [⟨"AND", 0x0F, .reg, .reg⟩, ⟨"ANDI", 0x10, .reg, .immediate⟩, ⟨"OR", 0x11, .reg, .reg⟩,
   ⟨"ORI", 0x12, .reg, .immediate⟩, ⟨"XOR", 0x13, .reg, .reg⟩, ⟨"XORI", 0x14, .reg, .immediate⟩,
   ⟨"SHR", 0x15, .reg, .reg⟩, ⟨"SHRI", 0x16, .reg, .immediate⟩, ⟨"SHL", 0x17, .reg, .reg⟩,
   ⟨"SHLI", 0x18, .reg, .immediate⟩, ⟨"NOT", 0x19, .reg, .none⟩]

/-- The rows of the stack operations and the flow controls. -/
def stackAndFlowRows : List OpcodeRow :=
  [⟨"PUSH", 0x1A, .reg, .none⟩, ⟨"IPUSH", 0x1B, .immediate, .none⟩, ⟨"POP", 0x1C, .reg, .none⟩,
   ⟨"HLT", 0xF0, .none, .none⟩, ⟨"JMP", 0xF1, .address, .none⟩, ⟨"CMP", 0xF2, .reg, .reg⟩,
   ⟨"IFEQ", 0xF3, .address, .none⟩, ⟨"IFLT", 0xF4, .address, .none⟩, ⟨"IFGT", 0xF5, .address, .none⟩,
   ⟨"DBGP", 0xFF, .none, .none⟩]

/-- The opcode map of R55, 36 rows. -/
def opcodeTable : List OpcodeRow := dataControlRows ++ arithRows ++ bitwiseRows ++ stackAndFlowRows

/-- The line `M a b` assembles to `opcode(M)`, then the bytes of `a`, then those of `b` (R60). -/
def assembleWords (mnemonic : String) (a b : Word) : Option Instr40 :=
  match opcodeTable.find? fun row => row.mnemonic == mnemonic with
  | some row => some (assemble row.opcode a b)
  | none => none

/-- The value of a hexadecimal digit; either case of a letter is taken (the example shows capitals only). -/
def hexDigit (c : Char) : Option Nat :=
  let n := c.toNat
  if 48 ≤ n ∧ n ≤ 57 then some (n - 48)
  else if 65 ≤ n ∧ n ≤ 70 then some (n - 55)
  else if 97 ≤ n ∧ n ≤ 102 then some (n - 87)
  else none

/-- Exactly four hexadecimal digits, with no prefix (R60). -/
def hexWord : List Char → Option Word
  | [c3, c2, c1, c0] =>
    match hexDigit c3, hexDigit c2, hexDigit c1, hexDigit c0 with
    | some d3, some d2, some d1, some d0 => some (BitVec.ofNat 16 (d3 * 4096 + d2 * 256 + d1 * 16 + d0))
    | _, _, _, _ => none
  | _ => none

/-- The part of a line before its comment. -/
def dropComment : List Char → List Char
  | [] => []
  | c :: cs => if c = ';' then [] else c :: dropComment cs

/-- The pieces of a line between blanks; `piece` is the one being read, last character first. -/
def splitBlanks (piece : List Char) : List Char → List (List Char)
  | [] => if piece.isEmpty then [] else [piece.reverse]
  | c :: cs =>
    if c = ' ' ∨ c = '\t' then
      if piece.isEmpty then splitBlanks [] cs else piece.reverse :: splitBlanks [] cs
    else splitBlanks (c :: piece) cs

/-- One line of assembler text: mnemonic, `op1` and `op2`, both always present (R60). -/
def assembleLine (line : String) : Option Instr40 :=
  match splitBlanks [] (dropComment line.toList) with
  | [m, a, b] =>
    match hexWord a, hexWord b with
    | some wa, some wb => assembleWords (String.ofList m) wa wb
    | _, _ => none
  | _ => none

end Sys2Proof.Machine
end

