-- ==== Sys2Proof/Safety.lean ====
section
/-! DEFINITION. What counts as a safe run and as the end of a run (spec/70_reset_and_hazards.md R163,
spec/60_exceptions.md R142). -/

namespace Sys2Proof.Safety

open Sys2Proof.Machine

/-- `k` steps, stopping at the first model stop. -/
def runFor (k : Nat) (s : State) : Host.Outcome State Fault Refusal := Host.Core.run Sys2Proof.core k s

/-- `t` is the state after `k` steps from `s`, none of which stopped. -/
def RunsTo (k : Nat) (s t : State) : Prop := runFor k s = .next t

/-- No run from `s` reaches a model stop (R142: a claim cannot be proved through one). -/
def NeverStops (s : State) : Prop := ∀ k, ∃ t, RunsTo k s t

/-- R163: a run ends when `run = Halted`, and `t` is then the result of the program. -/
def EndsWith (s t : State) : Prop := t.run = .halted ∧ ∃ k, RunsTo k s t

end Sys2Proof.Safety
end

