-- ==== Sys2Proof/WellFormed.lean ====
section
/-! DEFINITION. The one check the spec puts on an instruction's operands: a register-index operand word is 0 to 9
(spec/30_encoding.md R54). Immediates, data addresses and code addresses may be any 16-bit word (R52); a misaligned
jump target is a matter of running the instruction, not of its form (spec/43_flow_controls.md R127). -/

namespace Sys2Proof

/-- The operand words in a register-index role, op1's before op2's: the order in which they are checked
(spec/60_exceptions.md R144). -/
def Instr.regWords : Instr → List Word
  | .nop => []
  | .mov d s => [d, s]
  | .ldi d _ => [d]
  | .ldm d _ => [d]
  | .sto _ s => [s]
  | .stoi _ _ => []
  | .blnk => []
  | .add d s => [d, s]
  | .adi d _ => [d]
  | .sub d s => [d, s]
  | .subi d _ => [d]
  | .mul d s => [d, s]
  | .muli d _ => [d]
  | .div d s => [d, s]
  | .divi d _ => [d]
  | .and d s => [d, s]
  | .andi d _ => [d]
  | .or d s => [d, s]
  | .ori d _ => [d]
  | .xor d s => [d, s]
  | .xori d _ => [d]
  | .shr d s => [d, s]
  | .shri d _ => [d]
  | .shl d s => [d, s]
  | .shli d _ => [d]
  | .not d => [d]
  | .push s => [s]
  | .ipush _ => []
  | .pop d => [d]
  | .hlt => []
  | .jmp _ => []
  | .cmp a b => [a, b]
  | .ifeq _ => []
  | .iflt _ => []
  | .ifgt _ => []
  | .dbgp => []

/-- R54: every register-index operand word is 0 to 9. -/
def Instr.wellFormed (i : Instr) : Bool :=
  i.regWords.all fun w => decide (w.toNat < 10)

end Sys2Proof
end

