-- ==== Sys2Proof/Certificates/Slice0/Obligations.lean ====
section
/-! DEFINITION. The statements for the provers. They speak in the terms of the spec's pseudocode: exact integers through
`toNat`, one register, one flag, one byte at a time, so that each also says what stays unchanged. -/

namespace Sys2Proof.Claims

open Sys2Proof Sys2Proof.Machine

/-! ### Words of the statements -/

/-- The register a word of 0 to 9 names. -/
abbrev ix (w : Word) (h : w.toNat < 10) : RegIdx := ⟨w.toNat, h⟩

/-- Every register outside the list is unchanged. -/
def SameRegsBut (changed : List RegIdx) (s t : State) : Prop := ∀ q, q ∉ changed → t.reg q = s.reg q

/-- No flag changes. -/
def SameFlags (s t : State) : Prop := t.zfl = s.zfl ∧ t.cfl = s.cfl ∧ t.ofl = s.ofl

/-- No byte of memory changes. -/
def SameMemory (s t : State) : Prop := ∀ x : Nat, Memory.read t.mem x = Memory.read s.mem x

/-- The run state does not change. -/
def SameRun (s t : State) : Prop := t.run = s.run

/-- `pc <- (pc + 5) mod 65536` (spec/10_state.md R14; that it wraps is decision D4). -/
def PcPlusFive (s t : State) : Prop := t.pc.toNat = (s.pc.toNat + 5) % 65536

/-- Every register outside the list, every flag, every byte of memory and the run state are unchanged, and pc moves to
the next instruction: the frame of an instruction that writes only registers. -/
def OnlyRegs (changed : List RegIdx) (s t : State) : Prop :=
  SameRegsBut changed s t ∧ SameFlags s t ∧ SameMemory s t ∧ SameRun s t ∧ PcPlusFive s t

/-- `MemWrite(a, 2, v)` (spec/20_memory.md R33) took `s` to `t`: the high byte at `a`, the low byte at
`(a + 1) mod 65536`, and every other byte as it was. -/
def StoresWord (a v : Word) (s t : State) : Prop :=
  (Memory.read t.mem a.toNat).toNat = v.toNat / 256 ∧
  (Memory.read t.mem ((a.toNat + 1) % 65536)).toNat = v.toNat % 256 ∧
  ∀ x : Nat, x ≠ a.toNat → x ≠ (a.toNat + 1) % 65536 → Memory.read t.mem x = Memory.read s.mem x

/-- `MemRead(a, 2)` (R32) on exact integers. -/
def wordAt (s : State) (a : Word) : Nat :=
  (Memory.read s.mem a.toNat).toNat * 256 + (Memory.read s.mem ((a.toNat + 1) % 65536)).toNat

/-- The first of the register-index operand words above 9 is the one reported (spec/30_encoding.md R54; that it is a stop
is decision D7). -/
def StopsOnBadRegister (ws : List Word) (o : Result) : Prop :=
  ∀ w, ws.find? (fun w => decide (9 < w.toNat)) = some w → o = .fault (.invalidRegister w)

/-- `signed16(v)` of spec/00_scope.md R6. -/
def signed16 (v : Word) : Int := if v.toNat < 0x8000 then (v.toNat : Int) else (v.toNat : Int) - 65536

/-- Outside the signed 16-bit range (R83). -/
def OutsideSigned (x : Int) : Prop := x < -32768 ∨ 32767 < x

/-! ### The rules of the arithmetic family, for a destination `d` and a second source value `b` (R80) -/

/-- R86, R87. -/
def AddRule (d : RegIdx) (b : Word) (s t : State) : Prop :=
  (t.reg d).toNat = ((s.reg d).toNat + b.toNat) % 65536 ∧
  (t.zfl = true ↔ (t.reg d).toNat = 0) ∧
  (t.cfl = true ↔ (s.reg d).toNat + b.toNat > 0xFFFF) ∧
  (t.ofl = true ↔ (s.reg d).getLsbD 15 = b.getLsbD 15 ∧ (t.reg d).getLsbD 15 ≠ (s.reg d).getLsbD 15) ∧
  SameRegsBut [d] s t ∧ SameMemory s t ∧ SameRun s t ∧ PcPlusFive s t

/-- R88, R89. -/
def SubRule (d : RegIdx) (b : Word) (s t : State) : Prop :=
  (t.reg d).toNat = ((s.reg d).toNat + 65536 - b.toNat) % 65536 ∧
  (t.zfl = true ↔ (t.reg d).toNat = 0) ∧
  (t.cfl = true ↔ (s.reg d).toNat < b.toNat) ∧
  (t.ofl = true ↔ (s.reg d).getLsbD 15 ≠ b.getLsbD 15 ∧ (t.reg d).getLsbD 15 ≠ (s.reg d).getLsbD 15) ∧
  SameRegsBut [d] s t ∧ SameMemory s t ∧ SameRun s t ∧ PcPlusFive s t

/-- R90, R91. Nothing is said of ZFL and CFL, which R105 leaves unspecified. -/
def MulRule (d : RegIdx) (b : Word) (s t : State) : Prop :=
  (t.reg d).toNat = ((s.reg d).toNat * b.toNat) % 65536 ∧
  (t.ofl = true ↔ (s.reg d).toNat * b.toNat > 0xFFFF) ∧
  SameRegsBut [d] s t ∧ SameMemory s t ∧ SameRun s t ∧ PcPlusFive s t

/-- R92, R93, R106: quotient to `d`, then remainder to R8, so that R8 as `d` holds the remainder; on a zero divisor the
pair `DIV0_RESULT`. Nothing is said of ZFL and CFL, which R105 leaves unspecified. -/
def DivRule (d : RegIdx) (b : Word) (s t : State) : Prop :=
  (b.toNat ≠ 0 →
    (d ≠ .md → (t.reg d).toNat = (s.reg d).toNat / b.toNat) ∧
    (t.reg .md).toNat = (s.reg d).toNat % b.toNat ∧ t.ofl = false) ∧
  (b.toNat = 0 →
    (d ≠ .md → t.reg d = (Config.div0Result (s.reg d) (s.reg .md)).1) ∧
    t.reg .md = (Config.div0Result (s.reg d) (s.reg .md)).2 ∧ t.ofl = true) ∧
  SameRegsBut [d, .md] s t ∧ SameMemory s t ∧ SameRun s t ∧ PcPlusFive s t

/-- A bitwise rule: bit by bit, and nothing else changes but pc (R84, R94 to R99, R104). -/
def BitsRule (f : Bool → Bool → Bool) (d : RegIdx) (b : Word) (s t : State) : Prop :=
  (∀ k, k < 16 → (t.reg d).getLsbD k = f ((s.reg d).getLsbD k) (b.getLsbD k)) ∧ OnlyRegs [d] s t

/-- R100, R101. -/
def ShrRule (d : RegIdx) (n : Word) (s t : State) : Prop :=
  (t.reg d).toNat = (if n.toNat ≥ 16 then 0 else (s.reg d).toNat / 2 ^ n.toNat) ∧ OnlyRegs [d] s t

/-- R102, R103. -/
def ShlRule (d : RegIdx) (n : Word) (s t : State) : Prop :=
  (t.reg d).toNat = (if n.toNat ≥ 16 then 0 else ((s.reg d).toNat * 2 ^ n.toNat) % 65536) ∧ OnlyRegs [d] s t

/-! ### The stack and control transfer -/

/-- R111, R112 with STACK_BIAS = 1: the pushed value is stored at the push slot, one below the old R9. -/
def PushRule (v : Word) (s t : State) : Prop :=
  (pushSlot s).toNat = ((s.reg .sp).toNat + 65535) % 65536 ∧
  StoresWord (pushSlot s) v s t ∧
  (t.reg .sp).toNat = ((s.reg .sp).toNat + 65534) % 65536 ∧
  SameRegsBut [.sp] s t ∧ SameFlags s t ∧ SameRun s t ∧ PcPlusFive s t

/-- What control transfer leaves alone: everything but pc. -/
def OnlyPc (s t : State) : Prop := SameRegsBut [] s t ∧ SameFlags s t ∧ SameMemory s t ∧ SameRun s t

/-- A conditional jump to `target`, taken or not (R124 to R127). -/
def BranchRule (taken : Prop) (target : Word) (s : State) (o : Result) : Prop :=
  (taken → target.toNat % 5 = 0 → ∃ t, o = .next t ∧ t.pc = target ∧ OnlyPc s t) ∧
  (taken → target.toNat % 5 ≠ 0 → o = .fault (.misalignedJump target)) ∧
  (¬ taken → ∃ t, o = .next t ∧ PcPlusFive s t ∧ OnlyPc s t)

/-- The target of an instruction that is a taken jump in `s`. -/
def takenTarget : Instr → State → Option Word
  | .jmp a, _ => some a
  | .ifeq a, s => if s.zfl then some a else none
  | .iflt a, s => if s.cfl then some a else none
  | .ifgt a, s => if s.cfl then none else some a
  | _, _ => none

/-- The address and value of the 16-bit write an instruction makes in `s` (spec/20_memory.md R30, R38), where its
operands are registers 0 to 9. -/
def storeOf : Instr → State → Option (Word × Word)
  | .sto a w, s => if h : w.toNat < 10 then some (a, s.reg (ix w h)) else none
  | .stoi a imm, _ => some (a, imm)
  | .push w, s => if h : w.toNat < 10 then some (pushSlot s, s.reg (ix w h)) else none
  | .ipush imm, s => some (pushSlot s, imm)
  | _, _ => none

/-- The nine instructions that write a flag (spec/41_arith_bitwise.md R84). -/
def writesFlags : Instr → Bool
  | .add _ _ | .adi _ _ | .sub _ _ | .subi _ _ | .mul _ _ | .muli _ _ | .div _ _ | .divi _ _ | .cmp _ _ => true
  | _ => false

/-- The destination register an instruction names through an operand word (the table of spec/10_state.md). -/
def namedDestination : Instr → Option Word
  | .mov d _ | .ldi d _ | .ldm d _ | .add d _ | .adi d _ | .sub d _ | .subi d _ | .mul d _ | .muli d _ | .div d _
  | .divi d _ | .and d _ | .andi d _ | .or d _ | .ori d _ | .xor d _ | .xori d _ | .shr d _ | .shri d _ | .shl d _
  | .shli d _ | .not d | .pop d => some d
  | _ => none

/-- The register an instruction writes without naming it (spec/10_state.md R12, R13). -/
def implicitDestination : Instr → Option RegIdx
  | .div _ _ | .divi _ _ => some .md
  | .push _ | .ipush _ | .pop _ => some .sp
  | _ => none

/-- The instructions that neither read nor write data memory (spec/20_memory.md R30). -/
def avoidsMemory : Instr → Bool
  | .ldm _ _ | .sto _ _ | .stoi _ _ | .push _ | .ipush _ | .pop _ => false
  | _ => true

/-- The model stop of a decoded instruction, in the order of spec/60_exceptions.md R144. -/
def stopOfInstr (i : Instr) (s : State) : Option Fault :=
  match i.regWords.find? (fun w => decide (9 < w.toNat)) with
  | some w => some (.invalidRegister w)
  | none =>
    match i, takenTarget i s with
    | .pop _, _ => if (s.reg .sp).toNat + 2 > 0xFFFF then some (.stackUnderflow (s.reg .sp)) else none
    | _, some a => if a.toNat % 5 ≠ 0 then some (.misalignedJump a) else none
    | _, none => none

/-- The model stop of a step (R141, R144): the opcode byte first, then the instruction's own. -/
def stopOf (s : State) : Option Fault :=
  match decode (fetch s) with
  | .error (.illegalOpcode b) => some (.illegalOpcode b)
  | .ok i => stopOfInstr i s

/-- The 36 opcode bytes of spec/30_encoding.md R55. -/
def isOpcode (b : Byte) : Prop := b.toNat ≤ 0x1C ∨ (0xF0 ≤ b.toNat ∧ b.toNat ≤ 0xF5) ∨ b.toNat = 0xFF

/-- The same outcome, its state changed by `f`. -/
def mapNext (f : State → State) : Result → Result
  | .next s => .next (f s)
  | .fault e => .fault e
  | .refused r => .refused r

/-- A push: IPUSH of any word, or PUSH of a register. -/
def IsPush (i : Instr) : Prop := (∃ imm, i = .ipush imm) ∨ ∃ w : Word, w.toNat < 10 ∧ i = .push w

/-- The value a push pushes in `s` (spec/42_stack.md R111, R112). -/
def pushedValue : Instr → State → Option Word
  | .ipush imm, _ => some imm
  | .push w, s => if h : w.toNat < 10 then some (s.reg (ix w h)) else none
  | _, _ => none

/-- Run pushes one after the other, collecting the pushed values, the first push first. -/
def pushAll : List Instr → State → Option (List Word × State)
  | [], s => some ([], s)
  | i :: is, s =>
    match pushedValue i s, exec i s with
    | some v, .next t => (pushAll is t).map fun p => (v :: p.1, p.2)
    | _, _ => none

/-- Pop into the named registers one after the other, collecting what each holds after its pop, the first pop first. -/
def popAll : List Word → State → Option (List Word × State)
  | [], s => some ([], s)
  | d :: ds, s =>
    match exec (.pop d) s with
    | .next t => if h : d.toNat < 10 then (popAll ds t).map fun p => (t.reg (ix d h) :: p.1, p.2) else none
    | _ => none

/-! ### Assembler text (spec/30_encoding.md R60) -/

/-- The mnemonics and opcode bytes of R55's table, written out: data controls and arithmetic. -/
def mnemonicsLow : List (String × Byte) :=
  [("NOP", 0x00), ("MOV", 0x01), ("LDI", 0x02), ("LDM", 0x03), ("STO", 0x04), ("STOI", 0x05), ("BLNK", 0x06),
   ("ADD", 0x07), ("ADI", 0x08), ("SUB", 0x09), ("SUBI", 0x0A), ("MUL", 0x0B), ("MULI", 0x0C), ("DIV", 0x0D),
   ("DIVI", 0x0E)]

/-- The mnemonics and opcode bytes of R55's table, written out: bitwise and shifts, stack, flow controls. -/
def mnemonicsHigh : List (String × Byte) :=
  [("AND", 0x0F), ("ANDI", 0x10), ("OR", 0x11), ("ORI", 0x12), ("XOR", 0x13), ("XORI", 0x14), ("SHR", 0x15),
   ("SHRI", 0x16), ("SHL", 0x17), ("SHLI", 0x18), ("NOT", 0x19), ("PUSH", 0x1A), ("IPUSH", 0x1B), ("POP", 0x1C),
   ("HLT", 0xF0), ("JMP", 0xF1), ("CMP", 0xF2), ("IFEQ", 0xF3), ("IFLT", 0xF4), ("IFGT", 0xF5), ("DBGP", 0xFF)]

/-- All 36. -/
def mnemonics : List (String × Byte) := mnemonicsLow ++ mnemonicsHigh

/-- The capital hexadecimal digit of a value of 0 to 15. -/
def hexChar (n : Nat) : Char :=
  ['0', '1', '2', '3', '4', '5', '6', '7', '8', '9', 'A', 'B', 'C', 'D', 'E', 'F'].getD n '0'

/-- A word as exactly four hexadecimal digits. -/
def hexText (w : Word) : List Char :=
  [hexChar (w.toNat / 4096), hexChar (w.toNat / 256 % 16), hexChar (w.toNat / 16 % 16), hexChar (w.toNat % 16)]

/-- No comment, or `;` and any text to the end of the line. -/
def commentText : Option (List Char) → List Char
  | none => []
  | some text => ';' :: text

/-- The line `M a b`: `j + 1` blanks before the first word, `k + 1` before the second, `l` after it, then the comment. -/
def lineText (m : String) (a b : Word) (j k l : Nat) (comment : Option (List Char)) : String :=
  String.ofList (m.toList ++ List.replicate (j + 1) ' ' ++ hexText a ++ List.replicate (k + 1) ' ' ++ hexText b ++
    List.replicate l ' ' ++ commentText comment)

end Sys2Proof.Claims

open Sys2Proof Sys2Proof.Machine Sys2Proof.Claims

/-! ### Encoding -/

/-- Decoding an encoded instruction gives it back, whatever its operand words (spec/30_encoding.md R50, R55). -/
def Obligations.DecodeOfEncodeIsTheInstruction : Prop := ∀ i : Instr, decode (encode i) = .ok i

/-- Encoding what a value decodes to gives the value back on every bit that means something, and 0 on the operand words
whose role is None (R53, R55). -/
def Obligations.EncodeOfDecodeKeepsTheUsedBits : Prop :=
  ∀ (w : Instr40) (i : Instr), decode w = .ok i → encode i = w &&& i.usedBits

/-- R55: the opcode map, one line per opcode, the operand words taken as they stand, and no other opcode byte is an
instruction. -/
def Obligations.OpcodeMapDecodes : Prop :=
  ∀ a b : Word,
    (∀ op : Byte, ¬ isOpcode op → ∀ i, decode (op ++ a ++ b) ≠ .ok i) ∧
    decode (0x00#8 ++ a ++ b) = .ok .nop ∧ decode (0x01#8 ++ a ++ b) = .ok (.mov a b) ∧
    decode (0x02#8 ++ a ++ b) = .ok (.ldi a b) ∧ decode (0x03#8 ++ a ++ b) = .ok (.ldm a b) ∧
    decode (0x04#8 ++ a ++ b) = .ok (.sto a b) ∧ decode (0x05#8 ++ a ++ b) = .ok (.stoi a b) ∧
    decode (0x06#8 ++ a ++ b) = .ok .blnk ∧ decode (0x07#8 ++ a ++ b) = .ok (.add a b) ∧
    decode (0x08#8 ++ a ++ b) = .ok (.adi a b) ∧ decode (0x09#8 ++ a ++ b) = .ok (.sub a b) ∧
    decode (0x0A#8 ++ a ++ b) = .ok (.subi a b) ∧ decode (0x0B#8 ++ a ++ b) = .ok (.mul a b) ∧
    decode (0x0C#8 ++ a ++ b) = .ok (.muli a b) ∧ decode (0x0D#8 ++ a ++ b) = .ok (.div a b) ∧
    decode (0x0E#8 ++ a ++ b) = .ok (.divi a b) ∧ decode (0x0F#8 ++ a ++ b) = .ok (.and a b) ∧
    decode (0x10#8 ++ a ++ b) = .ok (.andi a b) ∧ decode (0x11#8 ++ a ++ b) = .ok (.or a b) ∧
    decode (0x12#8 ++ a ++ b) = .ok (.ori a b) ∧ decode (0x13#8 ++ a ++ b) = .ok (.xor a b) ∧
    decode (0x14#8 ++ a ++ b) = .ok (.xori a b) ∧ decode (0x15#8 ++ a ++ b) = .ok (.shr a b) ∧
    decode (0x16#8 ++ a ++ b) = .ok (.shri a b) ∧ decode (0x17#8 ++ a ++ b) = .ok (.shl a b) ∧
    decode (0x18#8 ++ a ++ b) = .ok (.shli a b) ∧ decode (0x19#8 ++ a ++ b) = .ok (.not a) ∧
    decode (0x1A#8 ++ a ++ b) = .ok (.push a) ∧ decode (0x1B#8 ++ a ++ b) = .ok (.ipush a) ∧
    decode (0x1C#8 ++ a ++ b) = .ok (.pop a) ∧ decode (0xF0#8 ++ a ++ b) = .ok .hlt ∧
    decode (0xF1#8 ++ a ++ b) = .ok (.jmp a) ∧ decode (0xF2#8 ++ a ++ b) = .ok (.cmp a b) ∧
    decode (0xF3#8 ++ a ++ b) = .ok (.ifeq a) ∧ decode (0xF4#8 ++ a ++ b) = .ok (.iflt a) ∧
    decode (0xF5#8 ++ a ++ b) = .ok (.ifgt a) ∧ decode (0xFF#8 ++ a ++ b) = .ok .dbgp

/-- R55, R57: a value decodes exactly when its opcode byte is one of the 36; otherwise the decoder names the opcode.
That an undefined opcode is a stop is the spec's decision D6. -/
def Obligations.DecodeRefusesExactlyUndefinedOpcodes : Prop :=
  ∀ (op : Byte) (a b : Word),
    (isOpcode op → ∃ i, decode (op ++ a ++ b) = .ok i ∧ i.opcode = op) ∧
    (¬ isOpcode op → decode (op ++ a ++ b) = .error (.illegalOpcode op))

/-- R51, R53, R55: an operand word is a register index exactly where the table of R55 gives its role as Reg, and a word
whose role is None changes nothing (that it is ignored is decision D8, log entry 10). -/
def Obligations.OperandRolesFollowTheTable : Prop :=
  ∀ row ∈ opcodeTable, ∀ a b : Word, ∃ i, decode (row.opcode ++ a ++ b) = .ok i ∧
    i.regWords = (if row.op1 = .reg then [a] else []) ++ (if row.op2 = .reg then [b] else []) ∧
    (row.op1 = .none → ∀ a' : Word, decode (row.opcode ++ a' ++ b) = .ok i) ∧
    (row.op2 = .none → ∀ b' : Word, decode (row.opcode ++ a ++ b') = .ok i)

/-- Words written out from the spec's encodings: the source's example program (spec/30_encoding.md R60) and one word of
every family (the Example lines of R71, R74, R86, R93, R101, R124). -/
def Obligations.SpecWordsDecode : Prop :=
  decode 0x1BCAFE0000 = .ok (.ipush 0xCAFE) ∧ decode 0x1C00010000 = .ok (.pop 0x0001) ∧
  decode 0xF000000000 = .ok .hlt ∧ decode 0x0100010002 = .ok (.mov 1 2) ∧
  decode 0x0410000004 = .ok (.sto 0x1000 4) ∧ decode 0x0700000001 = .ok (.add 0 1) ∧
  decode 0x0E00030100 = .ok (.divi 3 0x0100) ∧ decode 0x1600020008 = .ok (.shri 2 8) ∧
  decode 0xF300280000 = .ok (.ifeq 0x0028)

/-- R60: for each of the 36 mnemonics with its opcode byte, the text line `M a b` (the words as four capital hexadecimal
digits each, any blanks between and after, with or without a comment) assembles to the opcode, then the two words; and a
line that assembles at all is, before its comment, three pieces: a mnemonic of the table and two pieces of four
characters. What else the model takes (digits in lower case, a tab or leading blanks) is log entry 26. -/
def Obligations.AssemblerLineIsOpcodeAndWords : Prop :=
  (∀ p ∈ mnemonics, ∀ (a b : Word) (j k l : Nat) (comment : Option (List Char)),
    assembleLine (lineText p.1 a b j k l comment) = some (p.2 ++ a ++ b)) ∧
  ∀ (line : String) (w : Instr40), assembleLine line = some w →
    ∃ m x y : List Char, splitBlanks [] (dropComment line.toList) = [m, x, y] ∧ x.length = 4 ∧ y.length = 4 ∧
      (String.ofList m, opcodeField w) ∈ mnemonics

/-! ### The step -/

/-- R34: the fetch is the five bytes at pc, every address modulo 65536, the first byte the most significant: the opcode,
then the two operand words, high byte first. -/
def Obligations.FetchIsFiveBytesFromPc : Prop :=
  ∀ s : State,
    opcodeField (fetch s) = Memory.read s.mem s.pc.toNat ∧
    (op1Field (fetch s)).toNat = (Memory.read s.mem ((s.pc.toNat + 1) % 65536)).toNat * 256 +
      (Memory.read s.mem ((s.pc.toNat + 2) % 65536)).toNat ∧
    (op2Field (fetch s)).toNat = (Memory.read s.mem ((s.pc.toNat + 3) % 65536)).toNat * 256 +
      (Memory.read s.mem ((s.pc.toNat + 4) % 65536)).toNat ∧
    (fetch s).toNat =
    (Memory.read s.mem s.pc.toNat).toNat * 2 ^ 32 + (Memory.read s.mem ((s.pc.toNat + 1) % 65536)).toNat * 2 ^ 24 +
    (Memory.read s.mem ((s.pc.toNat + 2) % 65536)).toNat * 2 ^ 16 +
    (Memory.read s.mem ((s.pc.toNat + 3) % 65536)).toNat * 2 ^ 8 +
    (Memory.read s.mem ((s.pc.toNat + 4) % 65536)).toNat

/-- spec/30_encoding.md R56: a Running CPU whose five bytes at pc decode to an instruction runs that instruction, and one
whose opcode byte is undefined stops with that byte (the stop is the spec's decision D6). The step adds nothing around
`exec`: each meaning writes pc itself. -/
def Obligations.StepRunsTheDecodedInstruction : Prop :=
  ∀ s : State, s.run = .running →
    (∀ i, decode (fetch s) = .ok i → step s = exec i s) ∧
    (∀ b, decode (fetch s) = .error (.illegalOpcode b) → step s = .fault (.illegalOpcode b))

/-- spec/10_state.md R17 (decisions D17, D18; log entries 18 and 19): in Halted nothing changes; in Paused no
instruction runs, and nothing changes but, when the host resumes, the run state back to Running. -/
def Obligations.HaltedAndPausedRunNoInstruction : Prop :=
  ∀ s : State,
    (s.run = .halted → step s = .next s) ∧
    (s.run = .paused → ∃ t, step s = .next t ∧ (t.run = .paused ∨ t.run = .running) ∧ t.pc = s.pc ∧
      SameRegsBut [] s t ∧ SameFlags s t ∧ SameMemory s t)

/-- spec/60_exceptions.md R141, R142, R144 (decision D21): a Running CPU stops exactly where the table of the four model
stops says, with the value it records, and otherwise takes its step; a CPU that is not Running never stops. -/
def Obligations.StepStopsExactlyAtTheFourModelStops : Prop :=
  ∀ s : State,
    (s.run = .running → ∀ f, step s = .fault f ↔ stopOf s = some f) ∧
    (s.run = .running → stopOf s = none → ∃ t, step s = .next t) ∧
    (s.run ≠ .running → ∃ t, step s = .next t)

/-- No step is refused: every instruction of the table has a meaning in the model. -/
def Obligations.NoStepIsRefused : Prop := ∀ (s : State) (r : Refusal), step s ≠ .refused r

/-- R54, R144 (decision D7): an instruction with a register-index word above 9 stops with the first such word,
whatever the state. -/
def Obligations.RegisterIndexAboveNineStops : Prop :=
  ∀ (i : Instr) (s : State) (w : Word),
    i.regWords.find? (fun w => decide (9 < w.toNat)) = some w → exec i s = .fault (.invalidRegister w)

/-! ### Reset and invariants -/

/-- spec/10_state.md R20, spec/70_reset_and_hazards.md R160, R161 (decisions D1, D2, D17, D25): after reset pc is 0x0000,
R9 is 0xFFFF and the CPU is Running, whatever the values the spec leaves open; an image of at most 65,536 bytes stands
at 0x0000 upward and every other byte is what memory held before. `State.reset` is one such launch. -/
def Obligations.LaunchState : Prop :=
  (∀ l : Launch,
    (State.launch l).pc = 0x0000 ∧ (State.launch l).reg .sp = 0xFFFF ∧ (State.launch l).run = .running ∧
    (∀ k (h : k < 9), (State.launch l).reg ⟨k, by omega⟩ = l.regs0to8[k]) ∧
    (State.launch l).zfl = l.zfl ∧ (State.launch l).cfl = l.cfl ∧ (State.launch l).ofl = l.ofl ∧
    (l.image.length ≤ 65536 → ∀ x : Nat, Memory.read (State.launch l).mem x =
      if h : x < l.image.length then l.image[x] else Memory.read l.memBefore x)) ∧
  ∃ l, State.launch l = State.reset

/-- The base case of `StepKeepsMemoryCanonical`: memory is in canonical form at `State.reset` (log entry 3: nothing is
listed) and at every launch whose memory before the load is, whatever the image and the values the spec leaves open. -/
def Obligations.ResetMemoryIsCanonical : Prop :=
  Memory.wf State.reset.mem ∧ ∀ l : Launch, Memory.wf l.memBefore → Memory.wf (State.launch l).mem

/-- The canonical form of memory is an invariant of every step. -/
def Obligations.StepKeepsMemoryCanonical : Prop :=
  ∀ s t : State, Memory.wf s.mem → step s = .next t → Memory.wf t.mem

/-- Two memories in canonical form whose 65,536 bytes agree are the same data. -/
def Obligations.CanonicalMemoryIsItsBytes : Prop :=
  ∀ m m' : Memory, Memory.wf m → Memory.wf m' →
    (∀ x, x < Config.memSize → Memory.read m x = Memory.read m' x) → m = m'

/-- spec/20_memory.md R36 (decisions D4, D19): a pc that is a multiple of 5 stays one over every step, except that
straight-line execution past 0xFFFF goes on at 0x0004. -/
def Obligations.StepKeepsPcAMultipleOfFive : Prop :=
  ∀ s t : State, s.pc.toNat % 5 = 0 → step s = .next t →
    t.pc.toNat % 5 = 0 ∨ (s.pc.toNat = 0xFFFF ∧ t.pc.toNat = 0x0004)

/-! ### Memory -/

/-- R32, R33: a one-byte access is that byte; a 16-bit access is two bytes, the high byte at the lower address, the
second address modulo 65536; a write changes no other byte. -/
def Obligations.WordAccessIsBigEndian : Prop :=
  ∀ (s : State) (a v : Word),
    s.byte a = Memory.read s.mem a.toNat ∧
    (∀ (b : Byte) (x : Nat), Memory.read (s.setByte a b).mem x = if x = a.toNat then b else Memory.read s.mem x) ∧
    (s.read16 a).toNat = wordAt s a ∧ StoresWord a v s (s.write16 a v) ∧ wordAt (s.write16 a v) a = v.toNat

/-- spec/20_memory.md R30, R33, R39: over any instruction, a byte of memory changes only where STO, STOI, PUSH or IPUSH
stores it (the stack slot by decision D5). -/
def Obligations.OnlyStoresAndPushesWriteMemory : Prop :=
  ∀ (i : Instr) (s t : State), exec i s = .next t → ∀ x : Word,
    t.byte x =
      match storeOf i s with
      | none => s.byte x
      | some (a, v) => if x = a then highByte v else if x = a + 1 then lowByte v else s.byte x

/-- R30: no instruction but LDM, STO, STOI, PUSH, IPUSH and POP touches memory: with any other memory it does the same
and leaves that memory as it was. -/
def Obligations.OtherInstructionsIgnoreMemory : Prop :=
  ∀ (i : Instr) (s : State) (m : Memory), avoidsMemory i = true →
    exec i { s with mem := m } = mapNext (fun t => { t with mem := m }) (exec i s)

/-- spec/20_memory.md R44 (decision D23): the next fetch sees the bytes an instruction stored, and the old bytes
everywhere else. -/
def Obligations.NextFetchSeesStoredBytes : Prop :=
  ∀ (i : Instr) (s t : State) (k : Nat), k < 5 → exec i s = .next t →
    (fetch t).extractLsb' (32 - 8 * k) 8 =
      match storeOf i s with
      | none => s.byte (t.pc + BitVec.ofNat 16 k)
      | some (a, v) =>
        if t.pc + BitVec.ofNat 16 k = a then highByte v
        else if t.pc + BitVec.ofNat 16 k = a + 1 then lowByte v else s.byte (t.pc + BitVec.ofNat 16 k)

/-! ### Data controls -/

/-- R70, R76: NOP and BLNK, with any operand words, only advance pc. -/
def Obligations.NopAndBlnkOnlyAdvancePc : Prop :=
  ∀ (a b : Word) (s : State),
    decode (0x00#8 ++ a ++ b) = .ok .nop ∧ decode (0x06#8 ++ a ++ b) = .ok .blnk ∧
    (∃ t, exec .nop s = .next t ∧ OnlyRegs [] s t) ∧ (∃ t, exec .blnk s = .next t ∧ OnlyRegs [] s t)

/-- R71: MOV copies op2's register to op1's and changes nothing else but pc. -/
def Obligations.MovCopiesRegister : Prop :=
  ∀ (d r : Word) (s : State),
    decode (0x01#8 ++ d ++ r) = .ok (.mov d r) ∧
    (∀ (hd : d.toNat < 10) (hr : r.toNat < 10), ∃ t, exec (.mov d r) s = .next t ∧
      t.reg (ix d hd) = s.reg (ix r hr) ∧ OnlyRegs [ix d hd] s t) ∧
    StopsOnBadRegister [d, r] (exec (.mov d r) s)

/-- R72: LDI puts op2 in the register. -/
def Obligations.LdiLoadsImmediate : Prop :=
  ∀ (d imm : Word) (s : State),
    decode (0x02#8 ++ d ++ imm) = .ok (.ldi d imm) ∧
    (∀ hd : d.toNat < 10, ∃ t, exec (.ldi d imm) s = .next t ∧ t.reg (ix d hd) = imm ∧ OnlyRegs [ix d hd] s t) ∧
    StopsOnBadRegister [d] (exec (.ldi d imm) s)

/-- R73: LDM loads `mem[op2]*256 + mem[(op2+1) mod 65536]`, at any address. -/
def Obligations.LdmLoadsWordFromMemory : Prop :=
  ∀ (d addr : Word) (s : State),
    decode (0x03#8 ++ d ++ addr) = .ok (.ldm d addr) ∧
    (∀ hd : d.toNat < 10, ∃ t, exec (.ldm d addr) s = .next t ∧
      (t.reg (ix d hd)).toNat = wordAt s addr ∧ OnlyRegs [ix d hd] s t) ∧
    StopsOnBadRegister [d] (exec (.ldm d addr) s)

/-- R74: STO stores the register's word at op1, any address, and changes nothing else but pc. -/
def Obligations.StoStoresRegister : Prop :=
  ∀ (addr r : Word) (s : State),
    decode (0x04#8 ++ addr ++ r) = .ok (.sto addr r) ∧
    (∀ hr : r.toNat < 10, ∃ t, exec (.sto addr r) s = .next t ∧ StoresWord addr (s.reg (ix r hr)) s t ∧
      SameRegsBut [] s t ∧ SameFlags s t ∧ SameRun s t ∧ PcPlusFive s t) ∧
    StopsOnBadRegister [r] (exec (.sto addr r) s)

/-- R75: STOI stores op2 at op1, any address, and changes nothing else but pc; it has no stop. -/
def Obligations.StoiStoresImmediate : Prop :=
  ∀ (addr imm : Word) (s : State),
    decode (0x05#8 ++ addr ++ imm) = .ok (.stoi addr imm) ∧
    ∃ t, exec (.stoi addr imm) s = .next t ∧ StoresWord addr imm s t ∧
      SameRegsBut [] s t ∧ SameFlags s t ∧ SameRun s t ∧ PcPlusFive s t

/-! ### Arithmetic -/

/-- R86: ADD. -/
def Obligations.AddSetsRegisterAndFlags : Prop :=
  ∀ (d r : Word) (s : State),
    decode (0x07#8 ++ d ++ r) = .ok (.add d r) ∧
    (∀ (hd : d.toNat < 10) (hr : r.toNat < 10), ∃ t, exec (.add d r) s = .next t ∧
      AddRule (ix d hd) (s.reg (ix r hr)) s t) ∧
    StopsOnBadRegister [d, r] (exec (.add d r) s)

/-- R87: ADI. -/
def Obligations.AdiSetsRegisterAndFlags : Prop :=
  ∀ (d imm : Word) (s : State),
    decode (0x08#8 ++ d ++ imm) = .ok (.adi d imm) ∧
    (∀ hd : d.toNat < 10, ∃ t, exec (.adi d imm) s = .next t ∧ AddRule (ix d hd) imm s t) ∧
    StopsOnBadRegister [d] (exec (.adi d imm) s)

/-- R88: SUB. -/
def Obligations.SubSetsRegisterAndFlags : Prop :=
  ∀ (d r : Word) (s : State),
    decode (0x09#8 ++ d ++ r) = .ok (.sub d r) ∧
    (∀ (hd : d.toNat < 10) (hr : r.toNat < 10), ∃ t, exec (.sub d r) s = .next t ∧
      SubRule (ix d hd) (s.reg (ix r hr)) s t) ∧
    StopsOnBadRegister [d, r] (exec (.sub d r) s)

/-- R89: SUBI. -/
def Obligations.SubiSetsRegisterAndFlags : Prop :=
  ∀ (d imm : Word) (s : State),
    decode (0x0A#8 ++ d ++ imm) = .ok (.subi d imm) ∧
    (∀ hd : d.toNat < 10, ∃ t, exec (.subi d imm) s = .next t ∧ SubRule (ix d hd) imm s t) ∧
    StopsOnBadRegister [d] (exec (.subi d imm) s)

/-- spec/41_arith_bitwise.md R83 (decision D26): OFL after an addition or a subtraction, in either form, tells that the
exact signed result lies outside -32768 .. 32767. -/
def Obligations.OverflowFlagIsSignedRange : Prop :=
  ∀ (d r imm : Word) (s t : State) (hd : d.toNat < 10) (hr : r.toNat < 10),
    (exec (.add d r) s = .next t →
      (t.ofl = true ↔ OutsideSigned (signed16 (s.reg (ix d hd)) + signed16 (s.reg (ix r hr))))) ∧
    (exec (.adi d imm) s = .next t → (t.ofl = true ↔ OutsideSigned (signed16 (s.reg (ix d hd)) + signed16 imm))) ∧
    (exec (.sub d r) s = .next t →
      (t.ofl = true ↔ OutsideSigned (signed16 (s.reg (ix d hd)) - signed16 (s.reg (ix r hr))))) ∧
    (exec (.subi d imm) s = .next t → (t.ofl = true ↔ OutsideSigned (signed16 (s.reg (ix d hd)) - signed16 imm)))

/-- R90, R91 (decision D11): MUL and MULI. ZFL and CFL are free values of log entry 7 and not stated. -/
def Obligations.MulMuliKeepLowHalfOfProduct : Prop :=
  ∀ (d r imm : Word) (s : State),
    decode (0x0B#8 ++ d ++ r) = .ok (.mul d r) ∧ decode (0x0C#8 ++ d ++ imm) = .ok (.muli d imm) ∧
    (∀ (hd : d.toNat < 10) (hr : r.toNat < 10), ∃ t, exec (.mul d r) s = .next t ∧
      MulRule (ix d hd) (s.reg (ix r hr)) s t) ∧
    (∀ hd : d.toNat < 10, ∃ t, exec (.muli d imm) s = .next t ∧ MulRule (ix d hd) imm s t) ∧
    StopsOnBadRegister [d, r] (exec (.mul d r) s) ∧ StopsOnBadRegister [d] (exec (.muli d imm) s)

/-- R92, R93 (decisions D12, D13, D15): DIV and DIVI, a zero divisor included. ZFL and CFL (log entry 7) and the pair
after a zero divisor (log entry 8) are free values. -/
def Obligations.DivDiviSetQuotientAndRemainder : Prop :=
  ∀ (d r imm : Word) (s : State),
    decode (0x0D#8 ++ d ++ r) = .ok (.div d r) ∧ decode (0x0E#8 ++ d ++ imm) = .ok (.divi d imm) ∧
    (∀ (hd : d.toNat < 10) (hr : r.toNat < 10), ∃ t, exec (.div d r) s = .next t ∧
      DivRule (ix d hd) (s.reg (ix r hr)) s t) ∧
    (∀ hd : d.toNat < 10, ∃ t, exec (.divi d imm) s = .next t ∧ DivRule (ix d hd) imm s t) ∧
    StopsOnBadRegister [d, r] (exec (.div d r) s) ∧ StopsOnBadRegister [d] (exec (.divi d imm) s)

/-! ### Bitwise, shifts, complement -/

/-- R94, R95: AND and ANDI, bit by bit; no flag changes. -/
def Obligations.AndAndiCombineBits : Prop :=
  ∀ (d r imm : Word) (s : State),
    decode (0x0F#8 ++ d ++ r) = .ok (.and d r) ∧ decode (0x10#8 ++ d ++ imm) = .ok (.andi d imm) ∧
    (∀ (hd : d.toNat < 10) (hr : r.toNat < 10), ∃ t, exec (.and d r) s = .next t ∧
      BitsRule (fun x y => x && y) (ix d hd) (s.reg (ix r hr)) s t) ∧
    (∀ hd : d.toNat < 10, ∃ t, exec (.andi d imm) s = .next t ∧ BitsRule (fun x y => x && y) (ix d hd) imm s t) ∧
    StopsOnBadRegister [d, r] (exec (.and d r) s) ∧ StopsOnBadRegister [d] (exec (.andi d imm) s)

/-- R96, R97: OR and ORI, bit by bit; no flag changes. -/
def Obligations.OrOriCombineBits : Prop :=
  ∀ (d r imm : Word) (s : State),
    decode (0x11#8 ++ d ++ r) = .ok (.or d r) ∧ decode (0x12#8 ++ d ++ imm) = .ok (.ori d imm) ∧
    (∀ (hd : d.toNat < 10) (hr : r.toNat < 10), ∃ t, exec (.or d r) s = .next t ∧
      BitsRule (fun x y => x || y) (ix d hd) (s.reg (ix r hr)) s t) ∧
    (∀ hd : d.toNat < 10, ∃ t, exec (.ori d imm) s = .next t ∧ BitsRule (fun x y => x || y) (ix d hd) imm s t) ∧
    StopsOnBadRegister [d, r] (exec (.or d r) s) ∧ StopsOnBadRegister [d] (exec (.ori d imm) s)

/-- R98, R99: XOR and XORI, bit by bit; no flag changes. -/
def Obligations.XorXoriCombineBits : Prop :=
  ∀ (d r imm : Word) (s : State),
    decode (0x13#8 ++ d ++ r) = .ok (.xor d r) ∧ decode (0x14#8 ++ d ++ imm) = .ok (.xori d imm) ∧
    (∀ (hd : d.toNat < 10) (hr : r.toNat < 10), ∃ t, exec (.xor d r) s = .next t ∧
      BitsRule (fun x y => x != y) (ix d hd) (s.reg (ix r hr)) s t) ∧
    (∀ hd : d.toNat < 10, ∃ t, exec (.xori d imm) s = .next t ∧ BitsRule (fun x y => x != y) (ix d hd) imm s t) ∧
    StopsOnBadRegister [d, r] (exec (.xor d r) s) ∧ StopsOnBadRegister [d] (exec (.xori d imm) s)

/-- R100, R101: SHR and SHRI, logical; a count of 16 or more gives 0 by decision D14. -/
def Obligations.ShrShriShiftRight : Prop :=
  ∀ (d r imm : Word) (s : State),
    decode (0x15#8 ++ d ++ r) = .ok (.shr d r) ∧ decode (0x16#8 ++ d ++ imm) = .ok (.shri d imm) ∧
    (∀ (hd : d.toNat < 10) (hr : r.toNat < 10), ∃ t, exec (.shr d r) s = .next t ∧
      ShrRule (ix d hd) (s.reg (ix r hr)) s t) ∧
    (∀ hd : d.toNat < 10, ∃ t, exec (.shri d imm) s = .next t ∧ ShrRule (ix d hd) imm s t) ∧
    StopsOnBadRegister [d, r] (exec (.shr d r) s) ∧ StopsOnBadRegister [d] (exec (.shri d imm) s)

/-- R102, R103: SHL and SHLI; a count of 16 or more gives 0 by decision D14. -/
def Obligations.ShlShliShiftLeft : Prop :=
  ∀ (d r imm : Word) (s : State),
    decode (0x17#8 ++ d ++ r) = .ok (.shl d r) ∧ decode (0x18#8 ++ d ++ imm) = .ok (.shli d imm) ∧
    (∀ (hd : d.toNat < 10) (hr : r.toNat < 10), ∃ t, exec (.shl d r) s = .next t ∧
      ShlRule (ix d hd) (s.reg (ix r hr)) s t) ∧
    (∀ hd : d.toNat < 10, ∃ t, exec (.shli d imm) s = .next t ∧ ShlRule (ix d hd) imm s t) ∧
    StopsOnBadRegister [d, r] (exec (.shl d r) s) ∧ StopsOnBadRegister [d] (exec (.shli d imm) s)

/-- R104: NOT inverts every bit, whatever the unused word; no flag changes. -/
def Obligations.NotInvertsEveryBit : Prop :=
  ∀ (d x : Word) (s : State),
    decode (0x19#8 ++ d ++ x) = .ok (.not d) ∧
    (∀ hd : d.toNat < 10, ∃ t, exec (.not d) s = .next t ∧
      (∀ k, k < 16 → (t.reg (ix d hd)).getLsbD k = !(s.reg (ix d hd)).getLsbD k) ∧ OnlyRegs [ix d hd] s t) ∧
    StopsOnBadRegister [d] (exec (.not d) s)

/-! ### Stack -/

/-- R111 (slot by decision D5, log entry 5): PUSH, of R9 itself too. -/
def Obligations.PushStoresRegisterBelowStackPointer : Prop :=
  ∀ (r x : Word) (s : State),
    decode (0x1A#8 ++ r ++ x) = .ok (.push r) ∧
    (∀ hr : r.toNat < 10, ∃ t, exec (.push r) s = .next t ∧ PushRule (s.reg (ix r hr)) s t) ∧
    StopsOnBadRegister [r] (exec (.push r) s)

/-- R112 (slot by decision D5, log entry 5): IPUSH, which has no stop. -/
def Obligations.IpushStoresImmediateBelowStackPointer : Prop :=
  ∀ (imm x : Word) (s : State),
    decode (0x1B#8 ++ imm ++ x) = .ok (.ipush imm) ∧ ∃ t, exec (.ipush imm) s = .next t ∧ PushRule imm s t

/-- R113, R114 (decisions D5, D15, D20): POP loads the word above R9 and R9 goes up by 2, the later write when R9 is the
destination; with R9 at 0xFFFE or 0xFFFF it stops, after the register check. -/
def Obligations.PopLoadsWordAboveStackPointer : Prop :=
  ∀ (d x : Word) (s : State),
    decode (0x1C#8 ++ d ++ x) = .ok (.pop d) ∧
    (∀ hd : d.toNat < 10, (s.reg .sp).toNat + 2 ≤ 0xFFFF → ∃ t, exec (.pop d) s = .next t ∧
      (ix d hd ≠ .sp → (t.reg (ix d hd)).toNat = wordAt s (s.reg .sp + 1)) ∧
      (t.reg .sp).toNat = (s.reg .sp).toNat + 2 ∧ OnlyRegs [ix d hd, .sp] s t) ∧
    (d.toNat < 10 → (s.reg .sp).toNat + 2 > 0xFFFF → exec (.pop d) s = .fault (.stackUnderflow (s.reg .sp))) ∧
    StopsOnBadRegister [d] (exec (.pop d) s)

/-- spec/42_stack.md R110: "A pop is the exact inverse of a push". A pop right after a push gives back the pushed value
and the old R9, unless the push wrapped R9 (R9 below 2), where the pop underflows (decision D20). -/
def Obligations.PopUndoesPush : Prop :=
  ∀ (r d : Word) (s t : State) (hr : r.toNat < 10) (hd : d.toNat < 10), exec (.push r) s = .next t →
    (2 ≤ (s.reg .sp).toNat → ∃ u, exec (.pop d) t = .next u ∧ u.reg .sp = s.reg .sp ∧
      (ix d hd ≠ .sp → u.reg (ix d hd) = s.reg (ix r hr)) ∧
      ∀ q, q ≠ .sp → q ≠ ix d hd → u.reg q = s.reg q) ∧
    ((s.reg .sp).toNat < 2 → exec (.pop d) t = .fault (.stackUnderflow (t.reg .sp)))

/-- spec/42_stack.md R116 (decision D5): from R9 = 0xFFFF, after `n` pushes, each a PUSH of any register or an IPUSH,
R9 = 0xFFFF - 2n and the k-th pushed value occupies 0xFFFF - 2k + 1 and 0xFFFF - 2k + 2; `n` POPs, each into any register
but R9, return the values in reverse order and bring R9 back. -/
def Obligations.PushesFillDownwardAndPopInReverse : Prop :=
  ∀ (is : List Instr) (ds : List Word) (s : State), s.reg .sp = 0xFFFF → (∀ i ∈ is, IsPush i) →
    (∀ d ∈ ds, d.toNat < 9) → ds.length = is.length → 2 * is.length ≤ 0xFFFF →
    ∃ vs t, pushAll is s = some (vs, t) ∧ vs.length = is.length ∧ (t.reg .sp).toNat = 0xFFFF - 2 * vs.length ∧
      (∀ k (h : k < vs.length),
        Memory.read t.mem (0xFFFF - 2 * (k + 1) + 1) = highByte vs[k] ∧
        Memory.read t.mem (0xFFFF - 2 * (k + 1) + 2) = lowByte vs[k]) ∧
      ∃ u, popAll ds t = some (vs.reverse, u) ∧ u.reg .sp = 0xFFFF

/-! ### Flow controls -/

/-- R121 (decision D17): HLT, with any operand words, halts and keeps pc. -/
def Obligations.HltHaltsAndKeepsPc : Prop :=
  ∀ (a b : Word) (s : State),
    decode (0xF0#8 ++ a ++ b) = .ok .hlt ∧
    ∃ t, exec .hlt s = .next t ∧ t.run = .halted ∧ t.pc = s.pc ∧ SameRegsBut [] s t ∧ SameFlags s t ∧ SameMemory s t

/-- R128 (decision D18): DBGP, with any operand words, pauses and advances pc. -/
def Obligations.DbgpPausesAndAdvancesPc : Prop :=
  ∀ (a b : Word) (s : State),
    decode (0xFF#8 ++ a ++ b) = .ok .dbgp ∧
    ∃ t, exec .dbgp s = .next t ∧ t.run = .paused ∧ PcPlusFive s t ∧
      SameRegsBut [] s t ∧ SameFlags s t ∧ SameMemory s t

/-- R122: JMP. -/
def Obligations.JmpSetsPc : Prop :=
  ∀ (target x : Word) (s : State),
    decode (0xF1#8 ++ target ++ x) = .ok (.jmp target) ∧ BranchRule True target s (exec (.jmp target) s)

/-- R123 (decision D16): CMP writes ZFL and CFL from the unsigned values and leaves OFL and every register. -/
def Obligations.CmpSetsZeroAndCarry : Prop :=
  ∀ (a b : Word) (s : State),
    decode (0xF2#8 ++ a ++ b) = .ok (.cmp a b) ∧
    (∀ (ha : a.toNat < 10) (hb : b.toNat < 10), ∃ t, exec (.cmp a b) s = .next t ∧
      (t.zfl = true ↔ s.reg (ix a ha) = s.reg (ix b hb)) ∧
      (t.cfl = true ↔ (s.reg (ix a ha)).toNat < (s.reg (ix b hb)).toNat) ∧
      t.ofl = s.ofl ∧ SameRegsBut [] s t ∧ SameMemory s t ∧ SameRun s t ∧ PcPlusFive s t) ∧
    StopsOnBadRegister [a, b] (exec (.cmp a b) s)

/-- R124: IFEQ is taken if ZFL is TRUE. -/
def Obligations.IfeqJumpsOnZero : Prop :=
  ∀ (target x : Word) (s : State),
    decode (0xF3#8 ++ target ++ x) = .ok (.ifeq target) ∧
    BranchRule (s.zfl = true) target s (exec (.ifeq target) s)

/-- R125: IFLT is taken if CFL is TRUE. -/
def Obligations.IfltJumpsOnCarry : Prop :=
  ∀ (target x : Word) (s : State),
    decode (0xF4#8 ++ target ++ x) = .ok (.iflt target) ∧
    BranchRule (s.cfl = true) target s (exec (.iflt target) s)

/-- R126: IFGT is taken if CFL is FALSE; ZFL is not consulted. -/
def Obligations.IfgtJumpsOnNoCarry : Prop :=
  ∀ (target x : Word) (s : State),
    decode (0xF5#8 ++ target ++ x) = .ok (.ifgt target) ∧
    BranchRule (s.cfl = false) target s (exec (.ifgt target) s)

/-- The table of spec/43_flow_controls.md R129: which conditional jumps to an aligned target are taken after a CMP. -/
def Obligations.JumpsAfterCompare : Prop :=
  ∀ (a b target : Word) (s t : State) (ha : a.toNat < 10) (hb : b.toNat < 10), target.toNat % 5 = 0 →
    exec (.cmp a b) s = .next t →
      exec (.ifeq target) t =
        .next (if s.reg (ix a ha) = s.reg (ix b hb) then t.setPc target else t.advance) ∧
      exec (.iflt target) t =
        .next (if (s.reg (ix a ha)).toNat < (s.reg (ix b hb)).toNat then t.setPc target else t.advance) ∧
      exec (.ifgt target) t =
        .next (if (s.reg (ix a ha)).toNat < (s.reg (ix b hb)).toNat then t.advance else t.setPc target)

/-! ### Whole-machine rules -/

/-- spec/41_arith_bitwise.md R84 (decision D10), R15: only the nine arithmetic and compare instructions write a flag,
and CMP does not write OFL. -/
def Obligations.OnlyArithmeticAndCompareWriteFlags : Prop :=
  ∀ (i : Instr) (s t : State), exec i s = .next t →
    (writesFlags i = false → SameFlags s t) ∧ ((∃ a b, i = .cmp a b) → t.ofl = s.ofl)

/-- spec/10_state.md R11 to R13: an instruction writes no register but the one its destination operand names, R8 for DIV
and DIVI, and R9 for PUSH, IPUSH and POP. -/
def Obligations.RegistersWrittenAreNamedOrImplicit : Prop :=
  ∀ (i : Instr) (s t : State) (q : RegIdx), exec i s = .next t →
    (∀ w, namedDestination i = some w → w.toNat ≠ q.val) → implicitDestination i ≠ some q → t.reg q = s.reg q

/-- spec/10_state.md R14 (wrap by decision D4, HLT by D17): an instruction ends with pc + 5 modulo 65536, except a taken
jump, which ends with its target, and HLT, which leaves pc. -/
def Obligations.PcAfterEveryInstruction : Prop :=
  ∀ (i : Instr) (s t : State), exec i s = .next t →
    if i = .hlt then t.pc = s.pc
    else match takenTarget i s with
      | some a => t.pc = a
      | none => PcPlusFive s t

/-- spec/10_state.md R17 (decisions D17, D18): only HLT and DBGP write the run state. -/
def Obligations.OnlyHltAndDbgpWriteRun : Prop :=
  ∀ (i : Instr) (s t : State), exec i s = .next t →
    t.run = if i = .hlt then .halted else if i = .dbgp then .paused else s.run

/-- spec/10_state.md R16: a program cannot observe OFL. Over any number of steps, two states that differ only in OFL do
the same: the same model stop, or states that differ at most in OFL. THE MODEL'S CHOICE for steps spent Paused: the host
resumes by the count of draws alone (log entry 19), so it resumes both runs alike; R16 says that a host that inspects the
CPU can see OFL and spec/70_reset_and_hazards.md R164 lets a paused host read it, so a real host could resume them
differently. -/
def Obligations.OverflowFlagIsUnobservable : Prop :=
  ∀ (k : Nat) (s : State) (b : Bool),
    mapNext (fun t => { t with ofl := false }) (Safety.runFor k { s with ofl := b }) =
      mapNext (fun t => { t with ofl := false }) (Safety.runFor k s)

/-- spec/10_state.md R17, spec/70_reset_and_hazards.md R163 (decision D17): once Halted, nothing changes over any number
of steps, so the state a run ends with is the result of the program. -/
def Obligations.HaltedStateIsFinal : Prop :=
  ∀ (s t u : State) (k n : Nat), Safety.RunsTo k s t → t.run = .halted → Safety.RunsTo n s u → k ≤ n → u = t
end

