-- ==== Sys2Proof/Laws/State.lean ====
section
/-! SUPPORT. One lemma per field per update of State: what the update sets and what it leaves. Each is true by
unfolding and is a simp lemma, so that no later proof unfolds a record update. -/

namespace Sys2Proof.Machine

/-! ### setReg -/

@[simp] theorem State.setReg_pc (s : State) (r : RegIdx) (v : Word) : (s.setReg r v).pc = s.pc := rfl
@[simp] theorem State.setReg_zfl (s : State) (r : RegIdx) (v : Word) : (s.setReg r v).zfl = s.zfl := rfl
@[simp] theorem State.setReg_cfl (s : State) (r : RegIdx) (v : Word) : (s.setReg r v).cfl = s.cfl := rfl
@[simp] theorem State.setReg_ofl (s : State) (r : RegIdx) (v : Word) : (s.setReg r v).ofl = s.ofl := rfl
@[simp] theorem State.setReg_mem (s : State) (r : RegIdx) (v : Word) : (s.setReg r v).mem = s.mem := rfl
@[simp] theorem State.setReg_run (s : State) (r : RegIdx) (v : Word) : (s.setReg r v).run = s.run := rfl
@[simp] theorem State.setReg_draws (s : State) (r : RegIdx) (v : Word) : (s.setReg r v).draws = s.draws := rfl
theorem State.setReg_reg (s : State) (r : RegIdx) (v : Word) (q : RegIdx) :
    (s.setReg r v).reg q = if q = r then v else s.reg q := by
  simp only [State.reg, State.setReg, Vector.getElem_set, Fin.ext_iff, eq_comm]

@[simp] theorem State.setReg_reg_self (s : State) (r : RegIdx) (v : Word) : (s.setReg r v).reg r = v := by
  simp [State.setReg_reg]

theorem State.setReg_reg_of_ne (s : State) {r q : RegIdx} (v : Word) (h : q ≠ r) :
    (s.setReg r v).reg q = s.reg q := by
  simp [State.setReg_reg, h]
@[simp] theorem State.setReg_byte (s : State) (r : RegIdx) (v : Word) (y : Word) : (s.setReg r v).byte y = s.byte y := rfl

/-! ### setPc -/

@[simp] theorem State.setPc_pc (s : State) (v : Word) : (s.setPc v).pc = v := rfl
@[simp] theorem State.setPc_zfl (s : State) (v : Word) : (s.setPc v).zfl = s.zfl := rfl
@[simp] theorem State.setPc_cfl (s : State) (v : Word) : (s.setPc v).cfl = s.cfl := rfl
@[simp] theorem State.setPc_ofl (s : State) (v : Word) : (s.setPc v).ofl = s.ofl := rfl
@[simp] theorem State.setPc_mem (s : State) (v : Word) : (s.setPc v).mem = s.mem := rfl
@[simp] theorem State.setPc_run (s : State) (v : Word) : (s.setPc v).run = s.run := rfl
@[simp] theorem State.setPc_draws (s : State) (v : Word) : (s.setPc v).draws = s.draws := rfl
@[simp] theorem State.setPc_reg (s : State) (v : Word) (q : RegIdx) : (s.setPc v).reg q = s.reg q := rfl
@[simp] theorem State.setPc_byte (s : State) (v : Word) (y : Word) : (s.setPc v).byte y = s.byte y := rfl

/-! ### advance -/

@[simp] theorem State.advance_pc (s : State) : (s.advance).pc = s.pc + 5 := rfl
@[simp] theorem State.advance_zfl (s : State) : (s.advance).zfl = s.zfl := rfl
@[simp] theorem State.advance_cfl (s : State) : (s.advance).cfl = s.cfl := rfl
@[simp] theorem State.advance_ofl (s : State) : (s.advance).ofl = s.ofl := rfl
@[simp] theorem State.advance_mem (s : State) : (s.advance).mem = s.mem := rfl
@[simp] theorem State.advance_run (s : State) : (s.advance).run = s.run := rfl
@[simp] theorem State.advance_draws (s : State) : (s.advance).draws = s.draws := rfl
@[simp] theorem State.advance_reg (s : State) (q : RegIdx) : (s.advance).reg q = s.reg q := rfl
@[simp] theorem State.advance_byte (s : State) (y : Word) : (s.advance).byte y = s.byte y := rfl

/-! ### setRun -/

@[simp] theorem State.setRun_pc (s : State) (x : RunState) : (s.setRun x).pc = s.pc := rfl
@[simp] theorem State.setRun_zfl (s : State) (x : RunState) : (s.setRun x).zfl = s.zfl := rfl
@[simp] theorem State.setRun_cfl (s : State) (x : RunState) : (s.setRun x).cfl = s.cfl := rfl
@[simp] theorem State.setRun_ofl (s : State) (x : RunState) : (s.setRun x).ofl = s.ofl := rfl
@[simp] theorem State.setRun_mem (s : State) (x : RunState) : (s.setRun x).mem = s.mem := rfl
@[simp] theorem State.setRun_run (s : State) (x : RunState) : (s.setRun x).run = x := rfl
@[simp] theorem State.setRun_draws (s : State) (x : RunState) : (s.setRun x).draws = s.draws := rfl
@[simp] theorem State.setRun_reg (s : State) (x : RunState) (q : RegIdx) : (s.setRun x).reg q = s.reg q := rfl
@[simp] theorem State.setRun_byte (s : State) (x : RunState) (y : Word) : (s.setRun x).byte y = s.byte y := rfl

/-! ### setZC -/

@[simp] theorem State.setZC_pc (s : State) (z c : Bool) : (s.setZC z c).pc = s.pc := rfl
@[simp] theorem State.setZC_zfl (s : State) (z c : Bool) : (s.setZC z c).zfl = z := rfl
@[simp] theorem State.setZC_cfl (s : State) (z c : Bool) : (s.setZC z c).cfl = c := rfl
@[simp] theorem State.setZC_ofl (s : State) (z c : Bool) : (s.setZC z c).ofl = s.ofl := rfl
@[simp] theorem State.setZC_mem (s : State) (z c : Bool) : (s.setZC z c).mem = s.mem := rfl
@[simp] theorem State.setZC_run (s : State) (z c : Bool) : (s.setZC z c).run = s.run := rfl
@[simp] theorem State.setZC_draws (s : State) (z c : Bool) : (s.setZC z c).draws = s.draws := rfl
@[simp] theorem State.setZC_reg (s : State) (z c : Bool) (q : RegIdx) : (s.setZC z c).reg q = s.reg q := rfl
@[simp] theorem State.setZC_byte (s : State) (z c : Bool) (y : Word) : (s.setZC z c).byte y = s.byte y := rfl

/-! ### setOfl -/

@[simp] theorem State.setOfl_pc (s : State) (o : Bool) : (s.setOfl o).pc = s.pc := rfl
@[simp] theorem State.setOfl_zfl (s : State) (o : Bool) : (s.setOfl o).zfl = s.zfl := rfl
@[simp] theorem State.setOfl_cfl (s : State) (o : Bool) : (s.setOfl o).cfl = s.cfl := rfl
@[simp] theorem State.setOfl_ofl (s : State) (o : Bool) : (s.setOfl o).ofl = o := rfl
@[simp] theorem State.setOfl_mem (s : State) (o : Bool) : (s.setOfl o).mem = s.mem := rfl
@[simp] theorem State.setOfl_run (s : State) (o : Bool) : (s.setOfl o).run = s.run := rfl
@[simp] theorem State.setOfl_draws (s : State) (o : Bool) : (s.setOfl o).draws = s.draws := rfl
@[simp] theorem State.setOfl_reg (s : State) (o : Bool) (q : RegIdx) : (s.setOfl o).reg q = s.reg q := rfl
@[simp] theorem State.setOfl_byte (s : State) (o : Bool) (y : Word) : (s.setOfl o).byte y = s.byte y := rfl

/-! ### tick -/

@[simp] theorem State.tick_pc (s : State) : (s.tick).pc = s.pc := rfl
@[simp] theorem State.tick_zfl (s : State) : (s.tick).zfl = s.zfl := rfl
@[simp] theorem State.tick_cfl (s : State) : (s.tick).cfl = s.cfl := rfl
@[simp] theorem State.tick_ofl (s : State) : (s.tick).ofl = s.ofl := rfl
@[simp] theorem State.tick_mem (s : State) : (s.tick).mem = s.mem := rfl
@[simp] theorem State.tick_run (s : State) : (s.tick).run = s.run := rfl
@[simp] theorem State.tick_draws (s : State) : (s.tick).draws = s.draws + 1 := rfl
@[simp] theorem State.tick_reg (s : State) (q : RegIdx) : (s.tick).reg q = s.reg q := rfl
@[simp] theorem State.tick_byte (s : State) (y : Word) : (s.tick).byte y = s.byte y := rfl

/-! ### resume -/

@[simp] theorem State.resume_pc (s : State) : (s.resume).pc = s.pc := rfl
@[simp] theorem State.resume_zfl (s : State) : (s.resume).zfl = s.zfl := rfl
@[simp] theorem State.resume_cfl (s : State) : (s.resume).cfl = s.cfl := rfl
@[simp] theorem State.resume_ofl (s : State) : (s.resume).ofl = s.ofl := rfl
@[simp] theorem State.resume_mem (s : State) : (s.resume).mem = s.mem := rfl
@[simp] theorem State.resume_run (s : State) : (s.resume).run = .running := rfl
@[simp] theorem State.resume_draws (s : State) : (s.resume).draws = s.draws := rfl
@[simp] theorem State.resume_reg (s : State) (q : RegIdx) : (s.resume).reg q = s.reg q := rfl
@[simp] theorem State.resume_byte (s : State) (y : Word) : (s.resume).byte y = s.byte y := rfl

/-! ### setByte -/

@[simp] theorem State.setByte_pc (s : State) (a : Word) (b : Byte) : (s.setByte a b).pc = s.pc := rfl
@[simp] theorem State.setByte_zfl (s : State) (a : Word) (b : Byte) : (s.setByte a b).zfl = s.zfl := rfl
@[simp] theorem State.setByte_cfl (s : State) (a : Word) (b : Byte) : (s.setByte a b).cfl = s.cfl := rfl
@[simp] theorem State.setByte_ofl (s : State) (a : Word) (b : Byte) : (s.setByte a b).ofl = s.ofl := rfl
@[simp] theorem State.setByte_mem (s : State) (a : Word) (b : Byte) : (s.setByte a b).mem = Memory.write s.mem a.toNat b := rfl
@[simp] theorem State.setByte_run (s : State) (a : Word) (b : Byte) : (s.setByte a b).run = s.run := rfl
@[simp] theorem State.setByte_draws (s : State) (a : Word) (b : Byte) : (s.setByte a b).draws = s.draws := rfl
@[simp] theorem State.setByte_reg (s : State) (a : Word) (b : Byte) (q : RegIdx) : (s.setByte a b).reg q = s.reg q := rfl

/-! ### write16 -/

@[simp] theorem State.write16_pc (s : State) (a v : Word) : (s.write16 a v).pc = s.pc := rfl
@[simp] theorem State.write16_zfl (s : State) (a v : Word) : (s.write16 a v).zfl = s.zfl := rfl
@[simp] theorem State.write16_cfl (s : State) (a v : Word) : (s.write16 a v).cfl = s.cfl := rfl
@[simp] theorem State.write16_ofl (s : State) (a v : Word) : (s.write16 a v).ofl = s.ofl := rfl
@[simp] theorem State.write16_run (s : State) (a v : Word) : (s.write16 a v).run = s.run := rfl
@[simp] theorem State.write16_draws (s : State) (a v : Word) : (s.write16 a v).draws = s.draws := rfl
@[simp] theorem State.write16_reg (s : State) (a v : Word) (q : RegIdx) : (s.write16 a v).reg q = s.reg q := rfl

/-- Two states with the same fields are the same state; registers are compared one by one. -/
theorem State.ext_fields {s t : State} (hreg : ∀ r, s.reg r = t.reg r) (hpc : s.pc = t.pc) (hz : s.zfl = t.zfl)
    (hc : s.cfl = t.cfl) (ho : s.ofl = t.ofl) (hm : s.mem = t.mem) (hr : s.run = t.run) (hd : s.draws = t.draws) :
    s = t := by
  have hregs : s.regs = t.regs := Vector.ext fun i hi => hreg ⟨i, hi⟩
  cases s; cases t
  simp_all

/-! ### reset -/

@[simp] theorem State.reset_pc : State.reset.pc = 0x0000 := rfl
@[simp] theorem State.reset_run : State.reset.run = .running := rfl
@[simp] theorem State.reset_sp : State.reset.reg .sp = 0xFFFF := rfl
@[simp] theorem State.reset_mem : State.reset.mem = [] := rfl

end Sys2Proof.Machine
end

