-- ==== Sys2Proof/Laws/Arith.lean ====
section
/-! SUPPORT. What each shared operation of the arithmetic and bitwise families leaves in every field of the state. -/

namespace Sys2Proof.Machine

/-! ### Addition and subtraction -/

@[simp] theorem addInto_pc (d : RegIdx) (b : Word) (s : State) : (addInto d b s).pc = s.pc + 5 := rfl
@[simp] theorem addInto_mem (d : RegIdx) (b : Word) (s : State) : (addInto d b s).mem = s.mem := rfl
@[simp] theorem addInto_run (d : RegIdx) (b : Word) (s : State) : (addInto d b s).run = s.run := rfl
@[simp] theorem addInto_draws (d : RegIdx) (b : Word) (s : State) : (addInto d b s).draws = s.draws := rfl
@[simp] theorem addInto_zfl (d : RegIdx) (b : Word) (s : State) : (addInto d b s).zfl = isZero (s.reg d + b) := rfl
@[simp] theorem addInto_cfl (d : RegIdx) (b : Word) (s : State) : (addInto d b s).cfl = addCarry (s.reg d) b := rfl
@[simp] theorem addInto_ofl (d : RegIdx) (b : Word) (s : State) :
    (addInto d b s).ofl = addOverflow (s.reg d) b (s.reg d + b) := rfl
theorem addInto_reg (d : RegIdx) (b : Word) (s : State) (q : RegIdx) :
    (addInto d b s).reg q = if q = d then s.reg d + b else s.reg q := by
  simp [addInto, State.setReg_reg]

@[simp] theorem subInto_pc (d : RegIdx) (b : Word) (s : State) : (subInto d b s).pc = s.pc + 5 := rfl
@[simp] theorem subInto_mem (d : RegIdx) (b : Word) (s : State) : (subInto d b s).mem = s.mem := rfl
@[simp] theorem subInto_run (d : RegIdx) (b : Word) (s : State) : (subInto d b s).run = s.run := rfl
@[simp] theorem subInto_draws (d : RegIdx) (b : Word) (s : State) : (subInto d b s).draws = s.draws := rfl
@[simp] theorem subInto_zfl (d : RegIdx) (b : Word) (s : State) : (subInto d b s).zfl = isZero (s.reg d - b) := rfl
@[simp] theorem subInto_cfl (d : RegIdx) (b : Word) (s : State) : (subInto d b s).cfl = borrow (s.reg d) b := rfl
@[simp] theorem subInto_ofl (d : RegIdx) (b : Word) (s : State) :
    (subInto d b s).ofl = subOverflow (s.reg d) b (s.reg d - b) := rfl
theorem subInto_reg (d : RegIdx) (b : Word) (s : State) (q : RegIdx) :
    (subInto d b s).reg q = if q = d then s.reg d - b else s.reg q := by
  simp [subInto, State.setReg_reg]

/-! ### Multiplication and division -/

@[simp] theorem mulInto_pc (o : Byte) (d : RegIdx) (b : Word) (s : State) : (mulInto o d b s).pc = s.pc + 5 := rfl
@[simp] theorem mulInto_mem (o : Byte) (d : RegIdx) (b : Word) (s : State) : (mulInto o d b s).mem = s.mem := rfl
@[simp] theorem mulInto_run (o : Byte) (d : RegIdx) (b : Word) (s : State) : (mulInto o d b s).run = s.run := rfl
@[simp] theorem mulInto_ofl (o : Byte) (d : RegIdx) (b : Word) (s : State) :
    (mulInto o d b s).ofl = mulOverflow (s.reg d) b := rfl
theorem mulInto_reg (o : Byte) (d : RegIdx) (b : Word) (s : State) (q : RegIdx) :
    (mulInto o d b s).reg q = if q = d then s.reg d * b else s.reg q := by
  simp [mulInto, drawMulDivZC, State.setReg_reg]

theorem divResult_of_ne {b : Word} (h : b ≠ 0) (a m : Word) : divResult a b m = (a / b, a % b) := if_neg h
theorem divResult_zero (a m : Word) : divResult a 0 m = Config.div0Result a m := if_pos rfl

@[simp] theorem divInto_pc (o : Byte) (d : RegIdx) (b : Word) (s : State) : (divInto o d b s).pc = s.pc + 5 := rfl
@[simp] theorem divInto_mem (o : Byte) (d : RegIdx) (b : Word) (s : State) : (divInto o d b s).mem = s.mem := rfl
@[simp] theorem divInto_run (o : Byte) (d : RegIdx) (b : Word) (s : State) : (divInto o d b s).run = s.run := rfl
@[simp] theorem divInto_ofl (o : Byte) (d : RegIdx) (b : Word) (s : State) : (divInto o d b s).ofl = isZero b := rfl
theorem divInto_reg (o : Byte) (d : RegIdx) (b : Word) (s : State) (q : RegIdx) :
    (divInto o d b s).reg q =
      if q = .md then (divResult (s.reg d) b (s.reg .md)).2
      else if q = d then (divResult (s.reg d) b (s.reg .md)).1 else s.reg q := by
  simp [divInto, drawMulDivZC, State.setReg_reg]

/-! ### Bitwise and shifts -/

section
variable (f : Word → Word → Word) (d : RegIdx) (b : Word) (s : State)

@[simp] theorem combineInto_pc : (combineInto f d b s).pc = s.pc + 5 := rfl
@[simp] theorem combineInto_zfl : (combineInto f d b s).zfl = s.zfl := rfl
@[simp] theorem combineInto_cfl : (combineInto f d b s).cfl = s.cfl := rfl
@[simp] theorem combineInto_ofl : (combineInto f d b s).ofl = s.ofl := rfl
@[simp] theorem combineInto_mem : (combineInto f d b s).mem = s.mem := rfl
@[simp] theorem combineInto_run : (combineInto f d b s).run = s.run := rfl
@[simp] theorem combineInto_draws : (combineInto f d b s).draws = s.draws := rfl
theorem combineInto_reg (q : RegIdx) :
    (combineInto f d b s).reg q = if q = d then f (s.reg d) b else s.reg q := by
  simp [combineInto, State.setReg_reg]
end

/-- The value of a right shift on exact integers (spec/41_arith_bitwise.md R100). -/
theorem shiftRight_toNat (a n : Word) :
    (shiftRight a n).toNat = if 16 ≤ n.toNat then 0 else a.toNat / 2 ^ n.toNat := by
  simp only [shiftRight]
  split
  · rfl
  · simp [Nat.shiftRight_eq_div_pow]

/-- The value of a left shift on exact integers (R102). -/
theorem shiftLeft_toNat (a n : Word) :
    (shiftLeft a n).toNat = if 16 ≤ n.toNat then 0 else a.toNat * 2 ^ n.toNat % 65536 := by
  simp only [shiftLeft]
  split
  · rfl
  · simp [Nat.shiftLeft_eq]

end Sys2Proof.Machine
end

