-- ==== Sys2Proof/Laws/Assembler.lean ====
section
/-! SUPPORT. What reading one assembler line does, said once per function: dropping the comment, cutting at blanks, reading
a word of hexadecimal digits, looking a mnemonic up (spec/30_encoding.md R60). -/

namespace Sys2Proof.Machine

/-- Text without `;` stays; what follows it is treated on its own. -/
theorem dropComment_append {xs : List Char} (h : ∀ c ∈ xs, c ≠ ';') (ys : List Char) :
    dropComment (xs ++ ys) = xs ++ dropComment ys := by
  induction xs with
  | nil => rfl
  | cons c xs ih => simp [dropComment, h c (by simp), ih fun c hc => h c (by simp [hc])]

@[simp] theorem dropComment_semicolon (ys : List Char) : dropComment (';' :: ys) = [] := by simp [dropComment]

/-- Characters that are no blanks go onto the piece being read. -/
theorem splitBlanks_append {xs : List Char} (h : ∀ c ∈ xs, c ≠ ' ' ∧ c ≠ '\t') (piece ys : List Char) :
    splitBlanks piece (xs ++ ys) = splitBlanks (xs.reverse ++ piece) ys := by
  induction xs generalizing piece with
  | nil => rfl
  | cons c xs ih =>
    have hc := h c (by simp)
    simp [splitBlanks, hc.1, hc.2, ih fun c hc => h c (by simp [hc])]

/-- Blanks before a piece are skipped. -/
@[simp] theorem splitBlanks_blanks (n : Nat) (ys : List Char) :
    splitBlanks [] (List.replicate n ' ' ++ ys) = splitBlanks [] ys := by
  induction n with
  | zero => rfl
  | succ n ih => simpa [List.replicate_succ, splitBlanks] using ih

/-- Blanks after a piece end it. -/
theorem splitBlanks_piece {piece : List Char} (h : piece ≠ []) (n : Nat) (ys : List Char) :
    splitBlanks piece (List.replicate (n + 1) ' ' ++ ys) = piece.reverse :: splitBlanks [] ys := by
  simp [List.replicate_succ, splitBlanks, h]

/-- A word is read from exactly four digits. -/
theorem hexWord_eq_some {cs : List Char} {w : Word} (h : hexWord cs = some w) : cs.length = 4 := by
  unfold hexWord at h
  split at h
  · rfl
  · cases h

/-- If a mnemonic assembles, it is a row's, and the value is that row's opcode and the two words. -/
theorem assembleWords_eq_some {m : String} {a b : Word} {w : Instr40} (h : assembleWords m a b = some w) :
    ∃ row ∈ opcodeTable, row.mnemonic = m ∧ w = assemble row.opcode a b := by
  unfold assembleWords at h
  split at h
  · next row hr =>
    cases h
    exact ⟨row, List.mem_of_find?_eq_some hr, by simpa using List.find?_some hr, rfl⟩
  · cases h

/-- If a line assembles, it is, before its comment, a mnemonic and two words of four digits, and assembles to theirs. -/
theorem assembleLine_eq_some {line : String} {w : Instr40} (h : assembleLine line = some w) :
    ∃ (m x y : List Char) (a b : Word), splitBlanks [] (dropComment line.toList) = [m, x, y] ∧ hexWord x = some a ∧
      hexWord y = some b ∧ assembleWords (String.ofList m) a b = some w := by
  unfold assembleLine at h
  split at h
  · next m x y hs =>
    split at h
    · next a b ha hb => exact ⟨m, x, y, a, b, hs, ha, hb, h⟩
    · cases h
  · cases h

end Sys2Proof.Machine
end

