-- ==== Sys2Proof/Laws/Decode.lean ====
section
/-! SUPPORT. The fields of an assembled instruction, and the bytes of a 40-bit value. -/

namespace Sys2Proof

theorem append_toNat {n m : Nat} (x : BitVec n) (y : BitVec m) :
    (x ++ y).toNat = x.toNat * 2 ^ m + y.toNat := by
  rw [BitVec.toNat_append, Nat.shiftLeft_eq, Nat.mul_comm, Nat.two_pow_add_eq_or_of_lt y.isLt]

theorem assemble_toNat (opcode : Byte) (a b : Word) :
    (assemble opcode a b).toNat = opcode.toNat * 2 ^ 32 + a.toNat * 2 ^ 16 + b.toNat := by
  simp only [assemble, append_toNat]
  omega

@[simp] theorem opcodeField_assemble (opcode : Byte) (a b : Word) : opcodeField (assemble opcode a b) = opcode := by
  apply BitVec.eq_of_toNat_eq
  have h0 := opcode.isLt; have h1 := a.isLt; have h2 := b.isLt
  simp only [opcodeField, BitVec.extractLsb'_toNat, assemble_toNat, Nat.shiftRight_eq_div_pow]
  omega

@[simp] theorem op1Field_assemble (opcode : Byte) (a b : Word) : op1Field (assemble opcode a b) = a := by
  apply BitVec.eq_of_toNat_eq
  have h0 := opcode.isLt; have h1 := a.isLt; have h2 := b.isLt
  simp only [op1Field, BitVec.extractLsb'_toNat, assemble_toNat, Nat.shiftRight_eq_div_pow]
  omega

@[simp] theorem op2Field_assemble (opcode : Byte) (a b : Word) : op2Field (assemble opcode a b) = b := by
  apply BitVec.eq_of_toNat_eq
  have h0 := opcode.isLt; have h1 := a.isLt; have h2 := b.isLt
  simp only [op2Field, BitVec.extractLsb'_toNat, assemble_toNat, Nat.shiftRight_eq_div_pow]
  omega

/-- Decoding an assembled value is decoding its fields. -/
theorem decode_assemble (opcode : Byte) (a b : Word) : decode (assemble opcode a b) = decodeFields opcode a b := by
  simp [decode]

/-- A 40-bit value is its three fields. -/
theorem assemble_fields (w : Instr40) : assemble (opcodeField w) (op1Field w) (op2Field w) = w := by
  apply BitVec.eq_of_toNat_eq
  have := w.isLt
  simp only [assemble_toNat, opcodeField, op1Field, op2Field, BitVec.extractLsb'_toNat, Nat.shiftRight_eq_div_pow]
  omega

theorem joinFive_toNat (b0 b1 b2 b3 b4 : Byte) :
    (joinFive b0 b1 b2 b3 b4).toNat =
      b0.toNat * 2 ^ 32 + b1.toNat * 2 ^ 24 + b2.toNat * 2 ^ 16 + b3.toNat * 2 ^ 8 + b4.toNat := by
  simp only [joinFive, append_toNat]
  omega

/-- Putting an instruction's five bytes together again gives the instruction. -/
theorem joinFive_instrBytes (w : Instr40) :
    joinFive (w.extractLsb' 32 8) (w.extractLsb' 24 8) (w.extractLsb' 16 8) (w.extractLsb' 8 8)
      (w.extractLsb' 0 8) = w := by
  apply BitVec.eq_of_toNat_eq
  have := w.isLt
  simp only [joinFive_toNat, BitVec.extractLsb'_toNat, Nat.shiftRight_eq_div_pow]
  omega

end Sys2Proof
end

