-- ==== Sys2Proof/Laws/Operands.lean ====
section
/-! SUPPORT. Everything the register operand check can do (spec/30_encoding.md R54): go on with the register the word
names, or stop with that word. -/

namespace Sys2Proof.Machine

@[simp] theorem withReg_of_lt {w : Word} (h : w.toNat < 10) (k : RegIdx → Result) : withReg w k = k ⟨w.toNat, h⟩ := by
  simp [withReg, regIndex, h]

theorem withReg_of_not_lt {w : Word} (h : ¬ w.toNat < 10) (k : RegIdx → Result) :
    withReg w k = .fault (.invalidRegister w) := by
  simp [withReg, regIndex, h, raise]

/-- If the check goes on to a next state, the word names a register. -/
theorem withReg_next {w : Word} {k : RegIdx → Result} {t : State} (h : withReg w k = .next t) :
    ∃ hw : w.toNat < 10, k ⟨w.toNat, hw⟩ = .next t := by
  by_cases hw : w.toNat < 10
  · exact ⟨hw, by rwa [withReg_of_lt hw] at h⟩
  · rw [withReg_of_not_lt hw] at h; cases h

/-- A fault is the check's own, or comes after it. -/
theorem withReg_fault {w : Word} {k : RegIdx → Result} {f : Fault} (h : withReg w k = .fault f) :
    (¬ w.toNat < 10 ∧ f = .invalidRegister w) ∨ ∃ hw : w.toNat < 10, k ⟨w.toNat, hw⟩ = .fault f := by
  by_cases hw : w.toNat < 10
  · exact .inr ⟨hw, by rwa [withReg_of_lt hw] at h⟩
  · rw [withReg_of_not_lt hw] at h; cases h; exact .inl ⟨hw, rfl⟩

/-- The check refuses only what comes after it refuses. -/
theorem withReg_refused {w : Word} {k : RegIdx → Result} {r : Refusal} (h : withReg w k = .refused r) :
    ∃ hw : w.toNat < 10, k ⟨w.toNat, hw⟩ = .refused r := by
  by_cases hw : w.toNat < 10
  · exact ⟨hw, by rwa [withReg_of_lt hw] at h⟩
  · rw [withReg_of_not_lt hw] at h; cases h

theorem withRegs_of_lt {w1 w2 : Word} (h1 : w1.toNat < 10) (h2 : w2.toNat < 10) (k : RegIdx → RegIdx → Result) :
    withRegs w1 w2 k = k ⟨w1.toNat, h1⟩ ⟨w2.toNat, h2⟩ := by
  simp [withRegs, h1, h2]

/-- If both checks go on to a next state, both words name registers. -/
theorem withRegs_next {w1 w2 : Word} {k : RegIdx → RegIdx → Result} {t : State} (h : withRegs w1 w2 k = .next t) :
    ∃ (h1 : w1.toNat < 10) (h2 : w2.toNat < 10), k ⟨w1.toNat, h1⟩ ⟨w2.toNat, h2⟩ = .next t := by
  obtain ⟨h1, h⟩ := withReg_next h
  obtain ⟨h2, h⟩ := withReg_next h
  exact ⟨h1, h2, h⟩

end Sys2Proof.Machine
end

