-- ==== Sys2Proof/Laws/Memory.lean ====
section
/-! SUPPORT. What the memory operations do: a read after a write, the two bytes of a 16-bit access, and the canonical
form, which every operation keeps and which makes equal memories equal data. -/

namespace Sys2Proof.Machine

/-! ### One byte -/

theorem Memory.read_erase (m : Memory) (a x : Nat) :
    Memory.read (Memory.erase m a) x = if x = a then unlistedByte else Memory.read m x := by
  induction m with
  | nil => simp [Memory.erase, Memory.read]
  | cons c m ih =>
    obtain ⟨k, v⟩ := c
    simp only [Memory.erase]
    split
    · next hk =>
      subst hk
      rw [ih]
      simp only [Memory.read]
      split <;> simp_all [eq_comm]
    · next hk =>
      simp only [Memory.read, ih]
      split
      · next hx => subst hx; simp [hk]
      · rfl

theorem Memory.read_insert_of_ne (m : Memory) {a x : Nat} (b : Byte) (h : x ≠ a) :
    Memory.read (Memory.insert m a b) x = Memory.read m x := by
  induction m with
  | nil => simp [Memory.insert, Memory.read, Ne.symm h]
  | cons c m ih =>
    obtain ⟨k, v⟩ := c
    simp only [Memory.insert]
    split
    · simp [Memory.read, Ne.symm h]
    · simp [Memory.read, ih]

theorem Memory.read_insert_self (m : Memory) (a : Nat) (b : Byte) (h : ∀ c ∈ m, c.1 ≠ a) :
    Memory.read (Memory.insert m a b) a = b := by
  induction m with
  | nil => simp [Memory.insert, Memory.read]
  | cons c m ih =>
    obtain ⟨k, v⟩ := c
    have hk : k ≠ a := h (k, v) (by simp)
    simp only [Memory.insert]
    split
    · simp [Memory.read]
    · simp [Memory.read, hk, ih fun c hc => h c (by simp [hc])]

theorem Memory.mem_erase {m : Memory} {a : Nat} {c : Host.Cell} :
    c ∈ Memory.erase m a ↔ c ∈ m ∧ c.1 ≠ a := by
  induction m with
  | nil => simp [Memory.erase]
  | cons d m ih =>
    obtain ⟨k, v⟩ := d
    simp only [Memory.erase]
    split
    · next hk =>
      subst hk
      rw [ih, List.mem_cons]
      constructor
      · rintro ⟨h1, h2⟩; exact ⟨.inr h1, h2⟩
      · rintro ⟨rfl | h1, h2⟩
        · exact absurd rfl h2
        · exact ⟨h1, h2⟩
    · next hk =>
      rw [List.mem_cons, ih, List.mem_cons]
      constructor
      · rintro (rfl | ⟨h1, h2⟩)
        · exact ⟨.inl rfl, hk⟩
        · exact ⟨.inr h1, h2⟩
      · rintro ⟨rfl | h1, h2⟩
        · exact .inl rfl
        · exact .inr ⟨h1, h2⟩

/-- A read after a write (spec/20_memory.md R39): the byte written at its own address, the old byte elsewhere. -/
theorem Memory.read_write (m : Memory) (a : Nat) (b : Byte) (x : Nat) :
    Memory.read (Memory.write m a b) x = if x = a then b else Memory.read m x := by
  simp only [Memory.write]
  split
  · next hb => simp [Memory.read_erase, hb]
  · split
    · next hx => subst hx; exact Memory.read_insert_self _ _ _ fun c hc => (Memory.mem_erase.1 hc).2
    · next hx => rw [Memory.read_insert_of_ne _ _ hx, Memory.read_erase, if_neg hx]

/-! ### The canonical form -/

theorem Memory.mem_insert {m : Memory} {a : Nat} {b : Byte} {c : Host.Cell} :
    c ∈ Memory.insert m a b ↔ c = (a, b) ∨ c ∈ m := by
  induction m with
  | nil => simp [Memory.insert]
  | cons d m ih =>
    obtain ⟨k, v⟩ := d
    simp only [Memory.insert]
    split
    · simp
    · simp only [List.mem_cons, ih]; tauto

theorem Memory.erase_sublist (m : Memory) (a : Nat) : (Memory.erase m a).Sublist m := by
  induction m with
  | nil => exact .slnil
  | cons c m ih =>
    obtain ⟨k, v⟩ := c
    simp only [Memory.erase]
    split
    · exact ih.cons _
    · exact ih.cons_cons _

theorem Memory.insert_pairwise {m : Memory} {a : Nat} {b : Byte} (h : m.Pairwise (fun c c' => c.1 < c'.1))
    (ha : ∀ c ∈ m, c.1 ≠ a) : (Memory.insert m a b).Pairwise (fun c c' => c.1 < c'.1) := by
  induction m with
  | nil => simp [Memory.insert]
  | cons d m ih =>
    obtain ⟨k, v⟩ := d
    have hk : k ≠ a := ha (k, v) (by simp)
    obtain ⟨hhead, htail⟩ := List.pairwise_cons.1 h
    simp only [Memory.insert]
    split
    · next hlt =>
      refine List.pairwise_cons.2 ⟨fun c hc => ?_, h⟩
      rcases List.mem_cons.1 hc with rfl | hc
      · exact hlt
      · exact hlt.trans (hhead c hc)
    · refine List.pairwise_cons.2 ⟨fun c hc => ?_, ih htail fun c hc => ha c (by simp [hc])⟩
      rcases Memory.mem_insert.1 hc with rfl | hc
      · show k < a; omega
      · exact hhead c hc

/-- A write inside the address space keeps the canonical form. -/
theorem Memory.write_wf {m : Memory} {a : Nat} {b : Byte} (h : Memory.wf m) (ha : a < Config.memSize) :
    Memory.wf (Memory.write m a b) := by
  have hsub := Memory.erase_sublist m a
  have hpair := h.1.sublist hsub
  simp only [Memory.write]
  split
  · exact ⟨hpair, fun c hc => h.2 c (hsub.subset hc)⟩
  · next hb =>
    refine ⟨Memory.insert_pairwise hpair fun c hc => (Memory.mem_erase.1 hc).2, fun c hc => ?_⟩
    rcases Memory.mem_insert.1 hc with rfl | hc
    · exact ⟨ha, hb⟩
    · exact h.2 c (hsub.subset hc)

theorem Word.toNat_lt_memSize (a : Word) : a.toNat < Config.memSize := a.isLt

theorem State.setByte_mem_wf {s : State} (h : Memory.wf s.mem) (a : Word) (b : Byte) :
    Memory.wf (s.setByte a b).mem :=
  Memory.write_wf h (Word.toNat_lt_memSize a)

theorem State.write16_mem_wf {s : State} (h : Memory.wf s.mem) (a v : Word) : Memory.wf (s.write16 a v).mem :=
  State.setByte_mem_wf (State.setByte_mem_wf h _ _) _ _

theorem State.loadBytes_mem_wf {s : State} (h : Memory.wf s.mem) (a : Word) (bs : List Byte) :
    Memory.wf (s.loadBytes a bs).mem := by
  induction bs generalizing s a with
  | nil => exact h
  | cons b bs ih => exact ih (State.setByte_mem_wf h _ _) _

theorem Memory.read_of_forall_ne {m : Memory} {a : Nat} (h : ∀ c ∈ m, c.1 ≠ a) : Memory.read m a = unlistedByte := by
  induction m with
  | nil => rfl
  | cons c m ih =>
    obtain ⟨k, v⟩ := c
    simp [Memory.read, h (k, v) (by simp), ih fun c hc => h c (by simp [hc])]

/-! ### Bytes and words of a state -/

theorem State.setByte_byte (s : State) (a : Word) (b : Byte) (x : Word) :
    (s.setByte a b).byte x = if x = a then b else s.byte x := by
  simp [State.byte, Memory.read_write, BitVec.toNat_inj]

theorem Word.add_one_ne (a : Word) : a ≠ a + 1 := by bv_omega

/-- What a 16-bit write does to every byte (spec/20_memory.md R33). -/
theorem State.write16_byte (s : State) (a v x : Word) :
    (s.write16 a v).byte x = if x = a then highByte v else if x = a + 1 then lowByte v else s.byte x := by
  simp only [State.write16, State.setByte_byte]
  have := Word.add_one_ne a
  split <;> split <;> simp_all

/-- The value of a 16-bit read is the high byte times 256 plus the low byte (spec/20_memory.md R32). -/
theorem joinBytes_toNat (hi lo : Byte) : (joinBytes hi lo).toNat = hi.toNat * 256 + lo.toNat := append_toNat hi lo

theorem highByte_toNat (v : Word) : (highByte v).toNat = v.toNat / 256 := by
  have := v.isLt
  simp only [highByte, BitVec.extractLsb'_toNat, Nat.shiftRight_eq_div_pow]
  omega

theorem lowByte_toNat (v : Word) : (lowByte v).toNat = v.toNat % 256 := by
  simp [lowByte, BitVec.extractLsb'_toNat]

@[simp] theorem joinBytes_highByte_lowByte (v : Word) : joinBytes (highByte v) (lowByte v) = v := by
  apply BitVec.eq_of_toNat_eq
  rw [joinBytes_toNat, highByte_toNat, lowByte_toNat]
  omega

/-- A 16-bit read gives back the last 16-bit value written there. -/
@[simp] theorem State.write16_read16_self (s : State) (a v : Word) : (s.write16 a v).read16 a = v := by
  simp [State.read16, State.write16_byte]

end Sys2Proof.Machine
end

