-- ==== Sys2Proof/Laws/Ops.lean ====
section
/-! SUPPORT. What the shared operations on control transfer and the stack can do, said once each. -/

namespace Sys2Proof.Machine

/-- Everything a taken jump can do (spec/43_flow_controls.md R127). -/
theorem takeJump_cases (target : Word) (s : State) :
    (target.toNat % 5 = 0 ∧ takeJump target s = .next (s.setPc target)) ∨
      (target.toNat % 5 ≠ 0 ∧ takeJump target s = .fault (.misalignedJump target)) := by
  by_cases h : target.toNat % 5 = 0
  · exact .inl ⟨h, by simp [takeJump, h]⟩
  · exact .inr ⟨h, by simp [takeJump, h, raise]⟩

/-- Everything a conditional jump can do (R124 to R127). -/
theorem branch_cases (c : Bool) (target : Word) (s : State) :
    (c = false ∧ branch c target s = .next s.advance) ∨
      (c = true ∧ target.toNat % 5 = 0 ∧ branch c target s = .next (s.setPc target)) ∨
      (c = true ∧ target.toNat % 5 ≠ 0 ∧ branch c target s = .fault (.misalignedJump target)) := by
  cases c with
  | false => exact .inl ⟨rfl, by simp [branch]⟩
  | true =>
    rcases takeJump_cases target s with ⟨h, e⟩ | ⟨h, e⟩
    · exact .inr (.inl ⟨rfl, h, by simpa [branch] using e⟩)
    · exact .inr (.inr ⟨rfl, h, by simpa [branch] using e⟩)

/-- Everything a step in `Paused` can do (spec/10_state.md R17). -/
theorem pausedStep_cases (s : State) : pausedStep s = .next s.tick ∨ pausedStep s = .next s.resume.tick := by
  simp only [pausedStep]
  split
  · exact .inr rfl
  · exact .inl rfl

/-! ### The stack -/

theorem pushSlot_toNat (s : State) : (pushSlot s).toNat = ((s.reg .sp).toNat + 65535) % 65536 := by
  simp [pushSlot, stackBias, BitVec.toNat_sub]; omega

theorem popSlot_toNat (s : State) : (popSlot s).toNat = ((s.reg .sp).toNat + 1) % 65536 := by
  simp [popSlot, stackBias, BitVec.toNat_sub, BitVec.toNat_add]; omega

@[simp] theorem pushWord_pc (v : Word) (s : State) : (pushWord v s).pc = s.pc := rfl
@[simp] theorem pushWord_zfl (v : Word) (s : State) : (pushWord v s).zfl = s.zfl := rfl
@[simp] theorem pushWord_cfl (v : Word) (s : State) : (pushWord v s).cfl = s.cfl := rfl
@[simp] theorem pushWord_ofl (v : Word) (s : State) : (pushWord v s).ofl = s.ofl := rfl
@[simp] theorem pushWord_run (v : Word) (s : State) : (pushWord v s).run = s.run := rfl
@[simp] theorem pushWord_draws (v : Word) (s : State) : (pushWord v s).draws = s.draws := rfl

@[simp] theorem pushWord_sp (v : Word) (s : State) : (pushWord v s).reg .sp = s.reg .sp - 2 := by
  simp [pushWord]

theorem pushWord_reg_of_ne (v : Word) (s : State) {q : RegIdx} (h : q ≠ .sp) : (pushWord v s).reg q = s.reg q := by
  simp [pushWord, State.setReg_reg, h]

/-- What a push does to every byte of memory (spec/42_stack.md R111). -/
theorem pushWord_byte (v : Word) (s : State) (x : Word) :
    (pushWord v s).byte x =
      if x = pushSlot s then highByte v else if x = pushSlot s + 1 then lowByte v else s.byte x := by
  simp [pushWord, State.write16_byte]

theorem pushWord_mem_wf (v : Word) {s : State} (h : Memory.wf s.mem) : Memory.wf (pushWord v s).mem :=
  State.write16_mem_wf h _ _

@[simp] theorem popInto_pc (d : RegIdx) (s : State) : (popInto d s).pc = s.pc := rfl
@[simp] theorem popInto_zfl (d : RegIdx) (s : State) : (popInto d s).zfl = s.zfl := rfl
@[simp] theorem popInto_cfl (d : RegIdx) (s : State) : (popInto d s).cfl = s.cfl := rfl
@[simp] theorem popInto_ofl (d : RegIdx) (s : State) : (popInto d s).ofl = s.ofl := rfl
@[simp] theorem popInto_mem (d : RegIdx) (s : State) : (popInto d s).mem = s.mem := rfl
@[simp] theorem popInto_run (d : RegIdx) (s : State) : (popInto d s).run = s.run := rfl
@[simp] theorem popInto_draws (d : RegIdx) (s : State) : (popInto d s).draws = s.draws := rfl

@[simp] theorem popInto_sp (d : RegIdx) (s : State) : (popInto d s).reg .sp = s.reg .sp + 2 := by
  simp [popInto]

/-- Which value a pop leaves in each other register (R113). -/
theorem popInto_reg_of_ne (d : RegIdx) (s : State) {q : RegIdx} (h : q ≠ .sp) :
    (popInto d s).reg q = if q = d then s.read16 (popSlot s) else s.reg q := by
  simp [popInto, State.setReg_reg, h]

end Sys2Proof.Machine
end

