-- ==== Sys2Proof/Laws/Exec.lean ====
section
/-! SUPPORT. Everything an instruction can do when it answers a next state, said once: `Effect i s t` lists, for each
instruction, the conditions under which it completes and the state it leaves. Later proofs take cases on it and never
unfold a meaning. -/

namespace Sys2Proof.Machine

/-- `Effect i s t`: run in `s`, the instruction `i` completes and leaves `t`. -/
inductive Effect : Instr → State → State → Prop
  | nop (s : State) : Effect .nop s s.advance
  | mov (s : State) (d r : Word) (hd : d.toNat < 10) (hr : r.toNat < 10) :
    Effect (.mov d r) s (s.setReg ⟨d.toNat, hd⟩ (s.reg ⟨r.toNat, hr⟩)).advance
  | ldi (s : State) (d imm : Word) (hd : d.toNat < 10) : Effect (.ldi d imm) s (s.setReg ⟨d.toNat, hd⟩ imm).advance
  | ldm (s : State) (d addr : Word) (hd : d.toNat < 10) :
    Effect (.ldm d addr) s (s.setReg ⟨d.toNat, hd⟩ (s.read16 addr)).advance
  | sto (s : State) (addr r : Word) (hr : r.toNat < 10) :
    Effect (.sto addr r) s (s.write16 addr (s.reg ⟨r.toNat, hr⟩)).advance
  | stoi (s : State) (addr imm : Word) : Effect (.stoi addr imm) s (s.write16 addr imm).advance
  | blnk (s : State) : Effect .blnk s s.advance
  | add (s : State) (d r : Word) (hd : d.toNat < 10) (hr : r.toNat < 10) :
    Effect (.add d r) s (addInto ⟨d.toNat, hd⟩ (s.reg ⟨r.toNat, hr⟩) s)
  | adi (s : State) (d imm : Word) (hd : d.toNat < 10) : Effect (.adi d imm) s (addInto ⟨d.toNat, hd⟩ imm s)
  | sub (s : State) (d r : Word) (hd : d.toNat < 10) (hr : r.toNat < 10) :
    Effect (.sub d r) s (subInto ⟨d.toNat, hd⟩ (s.reg ⟨r.toNat, hr⟩) s)
  | subi (s : State) (d imm : Word) (hd : d.toNat < 10) : Effect (.subi d imm) s (subInto ⟨d.toNat, hd⟩ imm s)
  | mul (s : State) (d r : Word) (hd : d.toNat < 10) (hr : r.toNat < 10) :
    Effect (.mul d r) s (mulInto 0x0B ⟨d.toNat, hd⟩ (s.reg ⟨r.toNat, hr⟩) s)
  | muli (s : State) (d imm : Word) (hd : d.toNat < 10) : Effect (.muli d imm) s (mulInto 0x0C ⟨d.toNat, hd⟩ imm s)
  | div (s : State) (d r : Word) (hd : d.toNat < 10) (hr : r.toNat < 10) :
    Effect (.div d r) s (divInto 0x0D ⟨d.toNat, hd⟩ (s.reg ⟨r.toNat, hr⟩) s)
  | divi (s : State) (d imm : Word) (hd : d.toNat < 10) : Effect (.divi d imm) s (divInto 0x0E ⟨d.toNat, hd⟩ imm s)
  | and (s : State) (d r : Word) (hd : d.toNat < 10) (hr : r.toNat < 10) :
    Effect (.and d r) s (combineInto (· &&& ·) ⟨d.toNat, hd⟩ (s.reg ⟨r.toNat, hr⟩) s)
  | andi (s : State) (d imm : Word) (hd : d.toNat < 10) :
    Effect (.andi d imm) s (combineInto (· &&& ·) ⟨d.toNat, hd⟩ imm s)
  | or (s : State) (d r : Word) (hd : d.toNat < 10) (hr : r.toNat < 10) :
    Effect (.or d r) s (combineInto (· ||| ·) ⟨d.toNat, hd⟩ (s.reg ⟨r.toNat, hr⟩) s)
  | ori (s : State) (d imm : Word) (hd : d.toNat < 10) :
    Effect (.ori d imm) s (combineInto (· ||| ·) ⟨d.toNat, hd⟩ imm s)
  | xor (s : State) (d r : Word) (hd : d.toNat < 10) (hr : r.toNat < 10) :
    Effect (.xor d r) s (combineInto (· ^^^ ·) ⟨d.toNat, hd⟩ (s.reg ⟨r.toNat, hr⟩) s)
  | xori (s : State) (d imm : Word) (hd : d.toNat < 10) :
    Effect (.xori d imm) s (combineInto (· ^^^ ·) ⟨d.toNat, hd⟩ imm s)
  | shr (s : State) (d r : Word) (hd : d.toNat < 10) (hr : r.toNat < 10) :
    Effect (.shr d r) s (combineInto shiftRight ⟨d.toNat, hd⟩ (s.reg ⟨r.toNat, hr⟩) s)
  | shri (s : State) (d imm : Word) (hd : d.toNat < 10) :
    Effect (.shri d imm) s (combineInto shiftRight ⟨d.toNat, hd⟩ imm s)
  | shl (s : State) (d r : Word) (hd : d.toNat < 10) (hr : r.toNat < 10) :
    Effect (.shl d r) s (combineInto shiftLeft ⟨d.toNat, hd⟩ (s.reg ⟨r.toNat, hr⟩) s)
  | shli (s : State) (d imm : Word) (hd : d.toNat < 10) :
    Effect (.shli d imm) s (combineInto shiftLeft ⟨d.toNat, hd⟩ imm s)
  | not (s : State) (d : Word) (hd : d.toNat < 10) :
    Effect (.not d) s (combineInto (· ^^^ ·) ⟨d.toNat, hd⟩ 0xFFFF s)
  | push (s : State) (r : Word) (hr : r.toNat < 10) : Effect (.push r) s (pushWord (s.reg ⟨r.toNat, hr⟩) s).advance
  | ipush (s : State) (imm : Word) : Effect (.ipush imm) s (pushWord imm s).advance
  | pop (s : State) (d : Word) (hd : d.toNat < 10) (h : popUnderflows s = false) :
    Effect (.pop d) s (popInto ⟨d.toNat, hd⟩ s).advance
  | hlt (s : State) : Effect .hlt s (s.setRun .halted)
  | jmp (s : State) (target : Word) (h : target.toNat % 5 = 0) : Effect (.jmp target) s (s.setPc target)
  | cmp (s : State) (a b : Word) (ha : a.toNat < 10) (hb : b.toNat < 10) :
    Effect (.cmp a b) s (s.setZC (same (s.reg ⟨a.toNat, ha⟩) (s.reg ⟨b.toNat, hb⟩))
      (borrow (s.reg ⟨a.toNat, ha⟩) (s.reg ⟨b.toNat, hb⟩))).advance
  | ifeqTaken (s : State) (target : Word) (hc : s.zfl = true) (h : target.toNat % 5 = 0) :
    Effect (.ifeq target) s (s.setPc target)
  | ifeqNotTaken (s : State) (target : Word) (hc : s.zfl = false) : Effect (.ifeq target) s s.advance
  | ifltTaken (s : State) (target : Word) (hc : s.cfl = true) (h : target.toNat % 5 = 0) :
    Effect (.iflt target) s (s.setPc target)
  | ifltNotTaken (s : State) (target : Word) (hc : s.cfl = false) : Effect (.iflt target) s s.advance
  | ifgtTaken (s : State) (target : Word) (hc : s.cfl = false) (h : target.toNat % 5 = 0) :
    Effect (.ifgt target) s (s.setPc target)
  | ifgtNotTaken (s : State) (target : Word) (hc : s.cfl = true) : Effect (.ifgt target) s s.advance
  | dbgp (s : State) : Effect .dbgp s (s.setRun .paused).advance

theorem popUnderflows_eq_false {s : State} : popUnderflows s = false ↔ (s.reg .sp).toNat + 2 ≤ 0xFFFF := by
  simp [popUnderflows]

/-- The inversion of a conditional jump that answers a next state. -/
theorem branch_next {c : Bool} {target : Word} {s t : State} (h : branch c target s = .next t) :
    (c = true ∧ target.toNat % 5 = 0 ∧ t = s.setPc target) ∨ (c = false ∧ t = s.advance) := by
  rcases branch_cases c target s with ⟨hc, e⟩ | ⟨hc, h5, e⟩ | ⟨_, _, e⟩ <;> rw [e] at h <;> cases h
  · exact .inr ⟨hc, rfl⟩
  · exact .inl ⟨hc, h5, rfl⟩

/-- If an instruction answers a next state, its effect is the one listed. -/
theorem effect_of_exec {i : Instr} {s t : State} (h : exec i s = .next t) : Effect i s t := by
  cases i with
  | nop => cases h; exact .nop s
  | blnk => cases h; exact .blnk s
  | stoi a imm => cases h; exact .stoi s a imm
  | ipush imm => cases h; exact .ipush s imm
  | hlt => cases h; exact .hlt s
  | dbgp => cases h; exact .dbgp s
  | mov d r => obtain ⟨h1, h2, h⟩ := withRegs_next h; cases h; exact .mov s d r h1 h2
  | ldi d imm => obtain ⟨h1, h⟩ := withReg_next h; cases h; exact .ldi s d imm h1
  | ldm d addr => obtain ⟨h1, h⟩ := withReg_next h; cases h; exact .ldm s d addr h1
  | sto addr r => obtain ⟨h1, h⟩ := withReg_next h; cases h; exact .sto s addr r h1
  | add d r => obtain ⟨h1, h2, h⟩ := withRegs_next h; cases h; exact .add s d r h1 h2
  | adi d imm => obtain ⟨h1, h⟩ := withReg_next h; cases h; exact .adi s d imm h1
  | sub d r => obtain ⟨h1, h2, h⟩ := withRegs_next h; cases h; exact .sub s d r h1 h2
  | subi d imm => obtain ⟨h1, h⟩ := withReg_next h; cases h; exact .subi s d imm h1
  | mul d r => obtain ⟨h1, h2, h⟩ := withRegs_next h; cases h; exact .mul s d r h1 h2
  | muli d imm => obtain ⟨h1, h⟩ := withReg_next h; cases h; exact .muli s d imm h1
  | div d r => obtain ⟨h1, h2, h⟩ := withRegs_next h; cases h; exact .div s d r h1 h2
  | divi d imm => obtain ⟨h1, h⟩ := withReg_next h; cases h; exact .divi s d imm h1
  | and d r => obtain ⟨h1, h2, h⟩ := withRegs_next h; cases h; exact .and s d r h1 h2
  | andi d imm => obtain ⟨h1, h⟩ := withReg_next h; cases h; exact .andi s d imm h1
  | or d r => obtain ⟨h1, h2, h⟩ := withRegs_next h; cases h; exact .or s d r h1 h2
  | ori d imm => obtain ⟨h1, h⟩ := withReg_next h; cases h; exact .ori s d imm h1
  | xor d r => obtain ⟨h1, h2, h⟩ := withRegs_next h; cases h; exact .xor s d r h1 h2
  | xori d imm => obtain ⟨h1, h⟩ := withReg_next h; cases h; exact .xori s d imm h1
  | shr d r => obtain ⟨h1, h2, h⟩ := withRegs_next h; cases h; exact .shr s d r h1 h2
  | shri d imm => obtain ⟨h1, h⟩ := withReg_next h; cases h; exact .shri s d imm h1
  | shl d r => obtain ⟨h1, h2, h⟩ := withRegs_next h; cases h; exact .shl s d r h1 h2
  | shli d imm => obtain ⟨h1, h⟩ := withReg_next h; cases h; exact .shli s d imm h1
  | not d => obtain ⟨h1, h⟩ := withReg_next h; cases h; exact .not s d h1
  | push r => obtain ⟨h1, h⟩ := withReg_next h; cases h; exact .push s r h1
  | pop d =>
    obtain ⟨hd, h⟩ := withReg_next h
    cases hu : popUnderflows s with
    | true => simp [hu, raise] at h
    | false =>
      simp [hu] at h
      subst h
      exact .pop s d hd hu
  | jmp a =>
    rcases takeJump_cases a s with ⟨h5, e⟩ | ⟨_, e⟩ <;> rw [exec, execJmp, e] at h <;> cases h
    exact .jmp s a h5
  | cmp a b => obtain ⟨h1, h2, h⟩ := withRegs_next h; cases h; exact .cmp s a b h1 h2
  | ifeq a =>
    rcases branch_next h with ⟨hc, h5, rfl⟩ | ⟨hc, rfl⟩
    · exact .ifeqTaken s a (by simpa using hc) h5
    · exact .ifeqNotTaken s a (by simpa using hc)
  | iflt a =>
    rcases branch_next h with ⟨hc, h5, rfl⟩ | ⟨hc, rfl⟩
    · exact .ifltTaken s a (by simpa using hc) h5
    · exact .ifltNotTaken s a (by simpa using hc)
  | ifgt a =>
    rcases branch_next h with ⟨hc, h5, rfl⟩ | ⟨hc, rfl⟩
    · exact .ifgtTaken s a (by simpa using hc) h5
    · exact .ifgtNotTaken s a (by simpa using hc)

end Sys2Proof.Machine
end

