-- ==== Sys2Proof/Laws/PerInstr.lean ====
section
/-! SUPPORT. Facts about every instruction as syntax, one lemma per constructor. Family Encode: the three fields of an
encoded instruction are its opcode and its operand words, and no bit outside its used bits is set. -/

namespace Sys2Proof.Laws

/-- The encoding of `i` carries its opcode and operand words in the fields of spec/30_encoding.md R50. -/
def Encode.Statement (i : Instr) : Prop :=
  opcodeField (encode i) = i.opcode ∧ op1Field (encode i) = i.operands.1 ∧ op2Field (encode i) = i.operands.2

/-- The field lemmas of `assemble`, for every instruction at once. -/
theorem encode_fields (i : Instr) : Encode.Statement i :=
  ⟨opcodeField_assemble _ _ _, op1Field_assemble _ _ _, op2Field_assemble _ _ _⟩

theorem Encode.nop : Encode.Statement .nop := encode_fields _
theorem Encode.mov (d s : Word) : Encode.Statement (.mov d s) := encode_fields _
theorem Encode.ldi (d imm : Word) : Encode.Statement (.ldi d imm) := encode_fields _
theorem Encode.ldm (d addr : Word) : Encode.Statement (.ldm d addr) := encode_fields _
theorem Encode.sto (addr s : Word) : Encode.Statement (.sto addr s) := encode_fields _
theorem Encode.stoi (addr imm : Word) : Encode.Statement (.stoi addr imm) := encode_fields _
theorem Encode.blnk : Encode.Statement .blnk := encode_fields _
theorem Encode.add (d s : Word) : Encode.Statement (.add d s) := encode_fields _
theorem Encode.adi (d imm : Word) : Encode.Statement (.adi d imm) := encode_fields _
theorem Encode.sub (d s : Word) : Encode.Statement (.sub d s) := encode_fields _
theorem Encode.subi (d imm : Word) : Encode.Statement (.subi d imm) := encode_fields _
theorem Encode.mul (d s : Word) : Encode.Statement (.mul d s) := encode_fields _
theorem Encode.muli (d imm : Word) : Encode.Statement (.muli d imm) := encode_fields _
theorem Encode.div (d s : Word) : Encode.Statement (.div d s) := encode_fields _
theorem Encode.divi (d imm : Word) : Encode.Statement (.divi d imm) := encode_fields _
theorem Encode.and (d s : Word) : Encode.Statement (.and d s) := encode_fields _
theorem Encode.andi (d imm : Word) : Encode.Statement (.andi d imm) := encode_fields _
theorem Encode.or (d s : Word) : Encode.Statement (.or d s) := encode_fields _
theorem Encode.ori (d imm : Word) : Encode.Statement (.ori d imm) := encode_fields _
theorem Encode.xor (d s : Word) : Encode.Statement (.xor d s) := encode_fields _
theorem Encode.xori (d imm : Word) : Encode.Statement (.xori d imm) := encode_fields _
theorem Encode.shr (d s : Word) : Encode.Statement (.shr d s) := encode_fields _
theorem Encode.shri (d imm : Word) : Encode.Statement (.shri d imm) := encode_fields _
theorem Encode.shl (d s : Word) : Encode.Statement (.shl d s) := encode_fields _
theorem Encode.shli (d imm : Word) : Encode.Statement (.shli d imm) := encode_fields _
theorem Encode.not (d : Word) : Encode.Statement (.not d) := encode_fields _
theorem Encode.push (s : Word) : Encode.Statement (.push s) := encode_fields _
theorem Encode.ipush (imm : Word) : Encode.Statement (.ipush imm) := encode_fields _
theorem Encode.pop (d : Word) : Encode.Statement (.pop d) := encode_fields _
theorem Encode.hlt : Encode.Statement .hlt := encode_fields _
theorem Encode.jmp (target : Word) : Encode.Statement (.jmp target) := encode_fields _
theorem Encode.cmp (a b : Word) : Encode.Statement (.cmp a b) := encode_fields _
theorem Encode.ifeq (target : Word) : Encode.Statement (.ifeq target) := encode_fields _
theorem Encode.iflt (target : Word) : Encode.Statement (.iflt target) := encode_fields _
theorem Encode.ifgt (target : Word) : Encode.Statement (.ifgt target) := encode_fields _
theorem Encode.dbgp : Encode.Statement .dbgp := encode_fields _

end Sys2Proof.Laws
end

