-- ==== Sys2Proof/Laws/Step.lean ====
section
/-! SUPPORT. Everything a step can do, said once, and how runs compose. -/

namespace Sys2Proof.Machine

theorem step_of_running {s : State} (h : s.run = .running) : step s = runStep s := by simp [step, h]

theorem step_of_halted {s : State} (h : s.run = .halted) : step s = .next s := by simp [step, h, haltedStep]

theorem step_of_paused {s : State} (h : s.run = .paused) : step s = pausedStep s := by simp [step, h]

/-- The inversion of a step that answers a next state: a Running CPU ran the decoded instruction, a Halted one did
nothing, a Paused one was resumed or not. -/
theorem step_next_cases {s t : State} (h : step s = .next t) :
    (s.run = .running ∧ ∃ i, decode (fetch s) = .ok i ∧ Effect i s t) ∨ (s.run = .halted ∧ t = s) ∨
      (s.run = .paused ∧ (t = s.tick ∨ t = s.resume.tick)) := by
  cases hr : s.run with
  | running =>
    rw [step_of_running hr, runStep] at h
    split at h
    · next i hi => exact .inl ⟨rfl, i, hi, effect_of_exec h⟩
    · next e _ => cases e; cases h
  | halted => rw [step_of_halted hr] at h; cases h; exact .inr (.inl ⟨rfl, rfl⟩)
  | paused =>
    rw [step_of_paused hr] at h
    rcases pausedStep_cases s with e | e <;> rw [e] at h <;> cases h
    · exact .inr (.inr ⟨rfl, .inl rfl⟩)
    · exact .inr (.inr ⟨rfl, .inr rfl⟩)

@[simp] theorem fetch_setRun (s : State) (x : RunState) : fetch (s.setRun x) = fetch s := by
  simp only [fetch, State.setRun_pc, State.setRun_byte]

/-- The bytes of the instruction that `withFetchWord` stores are the bytes the next step fetches. -/
theorem fetch_loadBytes (s : State) (w : Instr40) : fetch (s.loadBytes s.pc (instrBytes w)) = w := by
  have h01 : s.pc ≠ s.pc + 1 := by bv_omega
  have e2 : s.pc + 1 + 1 = s.pc + 2 := by bv_omega
  have e3 : s.pc + 2 + 1 = s.pc + 3 := by bv_omega
  have e4 : s.pc + 3 + 1 = s.pc + 4 := by bv_omega
  have h02 : s.pc ≠ s.pc + 2 := by bv_omega
  have h03 : s.pc ≠ s.pc + 3 := by bv_omega
  have h04 : s.pc ≠ s.pc + 4 := by bv_omega
  have h12 : s.pc + 1 ≠ s.pc + 2 := by bv_omega
  have h13 : s.pc + 1 ≠ s.pc + 3 := by bv_omega
  have h14 : s.pc + 1 ≠ s.pc + 4 := by bv_omega
  have h23 : s.pc + 2 ≠ s.pc + 3 := by bv_omega
  have h24 : s.pc + 2 ≠ s.pc + 4 := by bv_omega
  have h34 : s.pc + 3 ≠ s.pc + 4 := by bv_omega
  simp only [fetch, instrBytes, State.loadBytes, State.setByte_pc, State.setByte_byte, e2, e3, e4, if_pos, if_neg h01,
    if_neg h02, if_neg h03, if_neg h04, if_neg h12, if_neg h13, if_neg h14, if_neg h23, if_neg h24, if_neg h34]
  exact joinFive_instrBytes w

/-- `withFetchWord` does what its name says: the next step runs the instruction of the word. -/
theorem step_withFetchWord (s : State) (nbits w : Nat) (i : Instr) (h : decode (tableInstr nbits w) = .ok i) :
    step (s.withFetchWord nbits w) = exec i (s.withFetchWord nbits w) := by
  have hf : fetch (s.withFetchWord nbits w) = tableInstr nbits w := by
    rw [State.withFetchWord, fetch_setRun, fetch_loadBytes]
  rw [step_of_running (by simp [State.withFetchWord]), runStep, hf, h]

end Sys2Proof.Machine

namespace Sys2Proof.Safety

open Sys2Proof.Machine

@[simp] theorem runFor_zero (s : State) : runFor 0 s = .next s := rfl

/-- A run of `k + 1` steps is a step and then a run of `k`. -/
theorem runFor_succ (k : Nat) (s : State) :
    runFor (k + 1) s = match step s with
      | .next t => runFor k t
      | .fault e => .fault e
      | .refused r => .refused r := by
  have e : core.step s = step s := rfl
  simp only [runFor, Host.Core.run]
  rw [e]
  cases step s <;> rfl

/-- Runs compose. -/
theorem runFor_add (k n : Nat) (s : State) :
    runFor (k + n) s = match runFor k s with
      | .next t => runFor n t
      | .fault e => .fault e
      | .refused r => .refused r := by
  induction k generalizing s with
  | zero => simp
  | succ k ih =>
    rw [Nat.succ_add, runFor_succ, runFor_succ]
    cases h : step s <;> simp [ih]

end Sys2Proof.Safety
end

