-- ==== Sys2Proof/Tests/Slice0.lean ====
section
/-! SUPPORT. Tests. Every expected value is the spec's: the Example and corner-case lines of the instruction rules, the
vectors of spec/95_test_vectors.md (named by their section), or the encodings of spec/30_encoding.md. The `test_hyp_…`
theorems show, for each statement with hypotheses, concrete values that meet them, at the ends of the ranges. -/

namespace Sys2Proof.Tests

open Sys2Proof Sys2Proof.Machine Sys2Proof.Claims

/-! ### Helpers -/

/-- The reset state with some registers set. -/
def regs (l : List (RegIdx × Word)) : State := l.foldl (fun s p => s.setReg p.1 p.2) State.reset

/-- The state with 16-bit words stored. -/
def mems (l : List (Word × Word)) (s : State) : State := l.foldl (fun s p => s.write16 p.1 p.2) s

/-- The step that runs the 40-bit word `w` at the state's pc. -/
def ran (w : Nat) (s : State) : Result := step (s.withFetchWord 40 w)

/-- The outcome is a next state that satisfies `p`. -/
def nextAnd (o : Result) (p : State → Bool) : Bool :=
  match o with
  | .next t => p t
  | _ => false

/-- The outcome is the model stop `f`. -/
def stops (o : Result) (f : Fault) : Bool :=
  match o with
  | .fault e => e == f
  | _ => false

/-- The three flags ZFL, CFL, OFL. -/
def flags (t : State) : Bool × Bool × Bool := (t.zfl, t.cfl, t.ofl)

/-- The reported register word of a list of register-index operand words. -/
def bad (ws : List Word) : Option Word := ws.find? fun w => decide (9 < w.toNat)

/-! ### Well-formedness: each register-role operand word above 9 is refused (R54) -/

theorem test_wf_mov : (Instr.mov 9 9).wellFormed = true ∧ (Instr.mov 10 0).wellFormed = false ∧
    (Instr.mov 0 10).wellFormed = false := by decide

theorem test_wf_data : (Instr.ldi 10 0).wellFormed = false ∧ (Instr.ldm 0xFFFF 0).wellFormed = false ∧
    (Instr.sto 0 10).wellFormed = false ∧ (Instr.sto 10 9).wellFormed = true ∧
    (Instr.ldi 9 10).wellFormed = true ∧ (Instr.stoi 10 10).wellFormed = true := by decide

theorem test_wf_arith_registers :
    (Instr.add 10 0).wellFormed = false ∧ (Instr.add 0 10).wellFormed = false ∧
    (Instr.sub 10 0).wellFormed = false ∧ (Instr.sub 0 10).wellFormed = false ∧
    (Instr.mul 10 0).wellFormed = false ∧ (Instr.mul 0 10).wellFormed = false ∧
    (Instr.div 10 0).wellFormed = false ∧ (Instr.div 0 10).wellFormed = false := by decide

theorem test_wf_bitwise_registers :
    (Instr.and 10 0).wellFormed = false ∧ (Instr.and 0 10).wellFormed = false ∧
    (Instr.or 10 0).wellFormed = false ∧ (Instr.or 0 10).wellFormed = false ∧
    (Instr.xor 10 0).wellFormed = false ∧ (Instr.xor 0 10).wellFormed = false ∧
    (Instr.shr 10 0).wellFormed = false ∧ (Instr.shr 0 10).wellFormed = false ∧
    (Instr.shl 10 0).wellFormed = false ∧ (Instr.shl 0 10).wellFormed = false ∧
    (Instr.not 10).wellFormed = false := by decide

theorem test_wf_immediates :
    (Instr.adi 10 0).wellFormed = false ∧ (Instr.subi 10 0).wellFormed = false ∧
    (Instr.muli 10 0).wellFormed = false ∧ (Instr.divi 10 0).wellFormed = false ∧
    (Instr.andi 10 0).wellFormed = false ∧ (Instr.ori 10 0).wellFormed = false ∧
    (Instr.xori 10 0).wellFormed = false ∧ (Instr.shri 10 0).wellFormed = false ∧
    (Instr.shli 10 0).wellFormed = false ∧ (Instr.adi 9 0xFFFF).wellFormed = true := by decide

theorem test_wf_stack_and_compare :
    (Instr.push 10).wellFormed = false ∧ (Instr.pop 10).wellFormed = false ∧ (Instr.ipush 10).wellFormed = true ∧
    (Instr.cmp 10 0).wellFormed = false ∧ (Instr.cmp 0 10).wellFormed = false ∧
    (Instr.jmp 10).wellFormed = true := by decide

/-! ### Decoding: words written out from the encodings of R50, R55 and the Encoding and Example lines of each rule -/

theorem test_decode_data :
    decode 0x0000000000 = .ok .nop ∧ decode 0x0100010002 = .ok (.mov 1 2) ∧ decode 0x020003BEEF = .ok (.ldi 3 0xBEEF) ∧
    decode 0x0300001000 = .ok (.ldm 0 0x1000) ∧ decode 0x0410000004 = .ok (.sto 0x1000 4) ∧
    decode 0x0520001234 = .ok (.stoi 0x2000 0x1234) ∧ decode 0x0600000000 = .ok .blnk := by decide

theorem test_decode_arith :
    decode 0x0700000001 = .ok (.add 0 1) ∧ decode 0x0800020001 = .ok (.adi 2 1) ∧
    decode 0x0900000001 = .ok (.sub 0 1) ∧ decode 0x0A00030001 = .ok (.subi 3 1) ∧
    decode 0x0B00000001 = .ok (.mul 0 1) ∧ decode 0x0C00020010 = .ok (.muli 2 0x10) ∧
    decode 0x0D00000001 = .ok (.div 0 1) ∧ decode 0x0E00030100 = .ok (.divi 3 0x100) := by decide

theorem test_decode_bitwise :
    decode 0x0F00000001 = .ok (.and 0 1) ∧ decode 0x10000200FF = .ok (.andi 2 0xFF) ∧
    decode 0x1100000001 = .ok (.or 0 1) ∧ decode 0x1200010034 = .ok (.ori 1 0x34) ∧
    decode 0x1300040004 = .ok (.xor 4 4) ∧ decode 0x140004FFFF = .ok (.xori 4 0xFFFF) ∧
    decode 0x1500000001 = .ok (.shr 0 1) ∧ decode 0x1600020008 = .ok (.shri 2 8) ∧
    decode 0x1700000001 = .ok (.shl 0 1) ∧ decode 0x1800050001 = .ok (.shli 5 1) ∧
    decode 0x1900000000 = .ok (.not 0) := by decide

theorem test_decode_stack :
    decode 0x1A00090000 = .ok (.push 9) ∧ decode 0x1BCAFE0000 = .ok (.ipush 0xCAFE) ∧
    decode 0x1C00010000 = .ok (.pop 1) := by decide

theorem test_decode_flow :
    decode 0xF000000000 = .ok .hlt ∧ decode 0xF1001E0000 = .ok (.jmp 0x1E) ∧ decode 0xF200000001 = .ok (.cmp 0 1) ∧
    decode 0xF300280000 = .ok (.ifeq 0x28) ∧ decode 0xF400050000 = .ok (.iflt 5) ∧
    decode 0xF500320000 = .ok (.ifgt 0x32) ∧ decode 0xFF00000000 = .ok .dbgp := by decide

/-- 2.1 and 2.8: operand words whose role is None are ignored (D8). -/
theorem test_decode_ignores_unused_words :
    decode 0x0012345678 = .ok .nop ∧ decode 0x1900001234 = .ok (.not 0) := by decide

/-- 2.12: the edges of the undefined ranges. -/
theorem test_decode_undefined :
    decode 0x1D00000000 = .error (.illegalOpcode 0x1D) ∧ decode 0xEF00000000 = .error (.illegalOpcode 0xEF) ∧
    decode 0xF600000000 = .error (.illegalOpcode 0xF6) ∧ decode 0xFE00000000 = .error (.illegalOpcode 0xFE) := by
  decide

/-- R53: an assembler emits 0000 for an unused word; R50: the operand words stand high byte first. -/
theorem test_encode :
    encode (.pop 1) = 0x1C00010000 ∧ encode (.ldi 3 0xBEEF) = 0x020003BEEF ∧ encode .hlt = 0xF000000000 := by decide

/-- spec/opcode_table.json: 40 bits, opcode in bits 39..32. -/
theorem test_table_word :
    decodeTableWord 40 0x0100010002 = some (.mov 1 2) ∧ decodeTableWord 40 0x1D00000000 = none ∧
    decodeTableWord 8 0xF0 = some .hlt ∧ decodeTableWord 24 0x1C0001 = some (.pop 1) := by decide

/-! ### Assembler lines: the example program of R60 -/

theorem test_assemble_ipush :
    assembleLine "IPUSH CAFE 0000  ; Push 0xCAFE onto the stack" = some 0x1BCAFE0000 := by decide

theorem test_assemble_pop : assembleLine "POP   0001 0000  ; Pop next value into R1" = some 0x1C00010000 := by decide

theorem test_assemble_hlt : assembleLine "HLT   0000 0000  ; Halt the CPU" = some 0xF000000000 := by decide

/-- R60: both words are always present, and a register is not written as R1. -/
theorem test_assemble_refuses : assembleLine "HLT" = none ∧ assembleLine "POP R1 0000" = none := by decide

/-! ### Memory -/

/-- The canonical form: writing what an unlisted address reads as removes the entry. -/
theorem test_memory_canonical :
    Memory.write [(5, 1), (7, 2)] 6 3 = [(5, 1), (6, 3), (7, 2)] ∧ Memory.write [(5, 1), (7, 2)] 5 0 = [(7, 2)] ∧
    Memory.wf (Memory.write [(5, 1), (7, 2)] 5 9) ∧ ¬ Memory.wf [(7, 2), (5, 1)] ∧ ¬ Memory.wf [(5, 0)] := by decide

/-- R31, E1: 0xCAFE at 0x1000 is CA then FE; R35: the second byte of 0xFFFF is at 0x0000. -/
theorem test_big_endian :
    ((State.reset.write16 0x1000 0xCAFE).byte 0x1000 = 0xCA ∧ (State.reset.write16 0x1000 0xCAFE).byte 0x1001 = 0xFE) ∧
    (State.reset.write16 0xFFFF 0x1234).byte 0x0000 = 0x34 := by decide

/-! ### One step of every instruction, from the vectors of spec/95_test_vectors.md part 2 -/

theorem test_nop : nextAnd (ran 0x0012345678 (regs [(0, 7)])) (fun t => t.pc == 5 && t.reg 0 == 7) = true := by decide

/-- 2.1: BLNK at 0x0014. -/
theorem test_blnk : nextAnd (ran 0x0600000000 ((regs []).setPc 0x14)) (fun t => t.pc == 0x19) = true := by decide

theorem test_mov : nextAnd (ran 0x0100010002 (regs [(2, 0x1234)]))
    (fun t => t.reg 1 == 0x1234 && t.reg 2 == 0x1234 && t.pc == 5) = true := by decide

theorem test_mov_sp : nextAnd (ran 0x0100090000 (regs [(0, 0x8000)])) (fun t => t.reg 9 == 0x8000) = true := by decide

theorem test_ldi : nextAnd (ran 0x020003BEEF (regs [])) (fun t => t.reg 3 == 0xBEEF && t.pc == 5) = true := by decide

theorem test_ldm_odd : nextAnd (ran 0x0300001001 (mems [(0x1000, 0xCAFE), (0x1002, 0x0100)] (regs [])))
    (fun t => t.reg 0 == 0xFE01) = true := by decide

/-- 2.1: the low byte of 0xFFFF comes from 0x0000, which here is the LDM's own opcode byte 0x03. -/
theorem test_ldm_wrap : nextAnd (ran 0x030000FFFF ((regs []).setByte 0xFFFF 0xAB))
    (fun t => t.reg 0 == 0xAB03) = true := by decide

theorem test_sto : nextAnd (ran 0x0420010009 (regs [(9, 0xFFFD)]))
    (fun t => t.byte 0x2001 == 0xFF && t.byte 0x2002 == 0xFD && t.byte 0x2000 == 0 && t.pc == 5) = true := by decide

theorem test_stoi_wrap : nextAnd (ran 0x05FFFF1234 (regs []))
    (fun t => t.byte 0xFFFF == 0x12 && t.byte 0x0000 == 0x34 && t.byte 0x0001 == 0xFF) = true := by decide

/-- 2.2 row 3. -/
theorem test_add_signed : nextAnd (ran 0x0700000001 (regs [(0, 0x7FFF), (1, 1)]))
    (fun t => t.reg 0 == 0x8000 && t.reg 1 == 1 && flags t == (false, false, true) && t.pc == 5) = true := by decide

/-- 2.2 row 5, with one register as both operands. -/
theorem test_add_self : nextAnd (ran 0x0700050005 (regs [(5, 0x8000)]))
    (fun t => t.reg 5 == 0 && flags t == (true, true, true)) = true := by decide

/-- 2.2 row 4. -/
theorem test_adi : nextAnd (ran 0x0800020001 (regs [(2, 0xFFFF)]))
    (fun t => t.reg 2 == 0 && flags t == (true, true, false)) = true := by decide

/-- 2.3 row 3. -/
theorem test_sub_borrow : nextAnd (ran 0x0900000001 (regs [(0, 5), (1, 7)]))
    (fun t => t.reg 0 == 0xFFFE && flags t == (false, true, false)) = true := by decide

/-- 2.3 row 8. -/
theorem test_sub_signed : nextAnd (ran 0x0900000001 (regs [(0, 0), (1, 0x8000)]))
    (fun t => t.reg 0 == 0x8000 && flags t == (false, true, true)) = true := by decide

/-- 2.3 row 9. -/
theorem test_subi : nextAnd (ran 0x0A00037FFF (regs [(3, 0xFFFF)]))
    (fun t => t.reg 3 == 0x8000 && flags t == (false, false, false)) = true := by decide

/-- 2.4 rows 3 and 6; ZFL and CFL are not looked at. -/
theorem test_mul : nextAnd (ran 0x0B00000001 (regs [(0, 0xFF), (1, 0xFF)]))
      (fun t => t.reg 0 == 0xFE01 && t.ofl == false && t.reg 8 == 0) = true ∧
    nextAnd (ran 0x0B00000001 (regs [(0, 0xFFFF), (1, 0xFFFF)])) (fun t => t.reg 0 == 1 && t.ofl) = true := by decide

/-- 2.4 row 8. -/
theorem test_muli : nextAnd (ran 0x0C00020010 (regs [(2, 0x1234)])) (fun t => t.reg 2 == 0x2340 && t.ofl) = true := by
  decide

/-- 2.5 row 1, and the two-write corner (D15). -/
theorem test_div : nextAnd (ran 0x0D00000001 (regs [(0, 0x3E8), (1, 7)]))
      (fun t => t.reg 0 == 0x8E && t.reg 8 == 6 && t.ofl == false && t.pc == 5) = true ∧
    nextAnd (ran 0x0D00080001 (regs [(8, 0x64), (1, 7)])) (fun t => t.reg 8 == 2) = true := by decide

/-- 2.5: the divisor in R8 is read before the remainder is written. -/
theorem test_div_by_md : nextAnd (ran 0x0D00000008 (regs [(0, 0x64), (8, 7)]))
    (fun t => t.reg 0 == 0xE && t.reg 8 == 2) = true := by decide

/-- 2.5 row 8: unsigned (D12). -/
theorem test_divi_unsigned : nextAnd (ran 0x0E0000FFFF (regs [(0, 0x8000)]))
    (fun t => t.reg 0 == 0 && t.reg 8 == 0x8000 && t.ofl == false) = true := by decide

/-- 2.5 last row: a division by zero sets OFL and goes on. -/
theorem test_divi_by_zero : nextAnd (ran 0x0E00000000 (regs [(0, 5)])) (fun t => t.ofl && t.pc == 5) = true := by decide

/-- 2.6 row 3: the result is zero and ZFL stays FALSE (D10). -/
theorem test_and : nextAnd (ran 0x0F00000001 (regs [(0, 0xAAAA), (1, 0x5555)]))
    (fun t => t.reg 0 == 0 && flags t == (false, false, false)) = true := by decide

theorem test_andi : nextAnd (ran 0x10000200FF (regs [(2, 0xCAFE)])) (fun t => t.reg 2 == 0x00FE) = true := by decide

theorem test_or : nextAnd (ran 0x1100000001 (regs [(0, 0xF0F0), (1, 0xFF00)])) (fun t => t.reg 0 == 0xFFF0) = true := by
  decide

theorem test_ori : nextAnd (ran 0x1200010034 (regs [(1, 0x1200)])) (fun t => t.reg 1 == 0x1234) = true := by decide

theorem test_xor : nextAnd (ran 0x1300000001 (regs [(0, 0xF0F0), (1, 0xFF00)])) (fun t => t.reg 0 == 0x0FF0) = true := by
  decide

theorem test_xori : nextAnd (ran 0x140004FFFF (regs [(4, 0xAAAA)])) (fun t => t.reg 4 == 0x5555) = true := by decide

theorem test_shr : nextAnd (ran 0x1500000001 (regs [(0, 0x8000), (1, 4)])) (fun t => t.reg 0 == 0x0800) = true := by
  decide

/-- 2.7 rows 4 and 5: counts 15 and 16. -/
theorem test_shri_counts : nextAnd (ran 0x160002000F (regs [(2, 0x8001)])) (fun t => t.reg 2 == 1) = true ∧
    nextAnd (ran 0x1600020010 (regs [(2, 0xFFFF)])) (fun t => t.reg 2 == 0) = true := by decide

theorem test_shl : nextAnd (ran 0x1700000001 (regs [(0, 0x81), (1, 8)])) (fun t => t.reg 0 == 0x8100) = true := by
  decide

/-- 2.7 rows 4 and 7: counts 15 and 0xFFFF. -/
theorem test_shli_counts : nextAnd (ran 0x180005000F (regs [(5, 0x8001)])) (fun t => t.reg 5 == 0x8000) = true ∧
    nextAnd (ran 0x180005FFFF (regs [(5, 0xFFFF)])) (fun t => t.reg 5 == 0) = true := by decide

theorem test_not : nextAnd (ran 0x1900001234 (regs [(0, 0xFF)])) (fun t => t.reg 0 == 0xFF00 && t.zfl == false) = true := by
  decide

/-- 2.9: PUSH of R9 pushes the old R9. -/
theorem test_push_sp : nextAnd (ran 0x1A00090000 (regs [(9, 0xFFFD)]))
    (fun t => t.byte 0xFFFC == 0xFF && t.byte 0xFFFD == 0xFD && t.reg 9 == 0xFFFB && t.pc == 5) = true := by decide

/-- 2.9: a push with R9 = 0 wraps (D4). -/
theorem test_ipush_wrap : nextAnd (ran 0x1B12340000 (regs [(9, 0)]))
    (fun t => t.byte 0xFFFF == 0x12 && t.byte 0x0000 == 0x34 && t.reg 9 == 0xFFFE) = true := by decide

theorem test_pop : nextAnd (ran 0x1C00010000 (mems [(0xFFFE, 0xCAFE)] (regs [(9, 0xFFFD)])))
    (fun t => t.reg 1 == 0xCAFE && t.reg 9 == 0xFFFF && t.pc == 5) = true := by decide

/-- 2.9: POP into R9 keeps the later write (D15); the empty stack stops. -/
theorem test_pop_sp : nextAnd (ran 0x1C00090000 (mems [(0x8002, 0x1234)] (regs [(9, 0x8001)])))
      (fun t => t.reg 9 == 0x8003) = true ∧
    stops (ran 0x1C00000000 (regs [(9, 0xFFFE)])) (.stackUnderflow 0xFFFE) = true := by decide

theorem test_hlt : nextAnd (ran 0xF000000000 ((regs []).setPc 0x14)) (fun t => t.run == .halted && t.pc == 0x14) = true := by
  decide

theorem test_jmp : nextAnd (ran 0xF1001E0000 ((regs []).setPc 0xA)) (fun t => t.pc == 0x1E) = true ∧
    stops (ran 0xF100070000 (regs [])) (.misalignedJump 7) = true := by decide

/-- R123, C10: unsigned, and OFL is left alone. -/
theorem test_cmp : nextAnd (ran 0xF200000001 ((regs [(0, 3), (1, 5)]).setOfl true))
      (fun t => flags t == (false, true, true)) = true ∧
    nextAnd (ran 0xF200000001 (regs [(0, 0xFFFF), (1, 1)])) (fun t => flags t == (false, false, false)) = true := by decide

/-- The Example of R124. -/
theorem test_ifeq : nextAnd (ran 0xF300280000 (((regs []).setZC true false).setPc 0x10)) (fun t => t.pc == 0x28) = true ∧
    nextAnd (ran 0xF300280000 (((regs []).setZC false true).setPc 0x10)) (fun t => t.pc == 0x15) = true := by decide

theorem test_iflt : nextAnd (ran 0xF400050000 (((regs []).setZC false true).setPc 0xF)) (fun t => t.pc == 5) = true ∧
    nextAnd (ran 0xF400050000 (((regs []).setZC true false).setPc 0xF)) (fun t => t.pc == 0x14) = true := by decide

/-- R126: taken on equality; R127: a misaligned target that is not taken is harmless. -/
theorem test_ifgt : nextAnd (ran 0xF500320000 (((regs []).setZC true false).setPc 0x14)) (fun t => t.pc == 0x32) = true ∧
    nextAnd (ran 0xF500330000 (((regs []).setZC false true).setPc 0x14)) (fun t => t.pc == 0x19) = true := by decide

theorem test_dbgp : nextAnd (ran 0xFF00000000 ((regs []).setPc 5)) (fun t => t.run == .paused && t.pc == 0xA) = true := by
  decide

/-- 2.12: the stops of decoding and of register operands, in the order of R144. -/
theorem test_stops :
    stops (ran 0x1D00000000 (regs [])) (.illegalOpcode 0x1D) = true ∧
    stops (ran 0x01000B000C (regs [])) (.invalidRegister 0xB) = true ∧
    stops (ran 0x010000000A (regs [])) (.invalidRegister 0xA) = true ∧
    stops (ran 0x1C000A0000 (regs [])) (.invalidRegister 0xA) = true := by decide

/-- R36: a fetch at 0xFFFF takes its operand bytes from 0x0000 on, and pc goes on at 0x0004. -/
theorem test_fetch_wrap : nextAnd (ran 0x020003BEEF ((regs []).setPc 0xFFFF))
    (fun t => t.reg 3 == 0xBEEF && t.pc == 4) = true := by decide

/-- R20: pc 0x0000, R9 0xFFFF, Running. -/
theorem test_reset : State.reset.pc = 0x0000 ∧ State.reset.reg .sp = 0xFFFF ∧ State.reset.run = .running := by decide

/-- R161: the image stands at 0x0000 upward. -/
theorem test_launch :
    (State.launch ⟨#v[1, 2, 3, 4, 5, 6, 7, 8, 9], true, true, true, [], [0xF0, 0, 0x12], 0⟩).byte 2 = 0x12 := by decide

/-! ### Witnesses: each statement's hypotheses can be met -/

theorem test_hyp_EncodeOfDecodeKeepsTheUsedBits : decode 0x0012345678 = .ok .nop := by decide

theorem test_hyp_OpcodeMapDecodes : ¬ isOpcode 0x1D ∧ ¬ isOpcode 0xEF ∧ ¬ isOpcode 0xF6 ∧ ¬ isOpcode 0xFE := by
  unfold isOpcode; decide

theorem test_hyp_DecodeRefusesExactlyUndefinedOpcodes :
    isOpcode 0x00 ∧ isOpcode 0x1C ∧ ¬ isOpcode 0x1D ∧ ¬ isOpcode 0xEF ∧ isOpcode 0xF0 ∧ isOpcode 0xF5 ∧
      ¬ isOpcode 0xF6 ∧ ¬ isOpcode 0xFE ∧ isOpcode 0xFF := by
  unfold isOpcode; decide

theorem test_hyp_OperandRolesFollowTheTable :
    ⟨"NOP", 0x00, .none, .none⟩ ∈ opcodeTable ∧ ⟨"DBGP", 0xFF, .none, .none⟩ ∈ opcodeTable ∧
    ⟨"POP", 0x1C, .reg, .none⟩ ∈ opcodeTable ∧ ⟨"STO", 0x04, .address, .reg⟩ ∈ opcodeTable := by decide

/-- The first and the last of the 36, the text of the example's first line, and a line that assembles. -/
theorem test_hyp_AssemblerLineIsOpcodeAndWords :
    ("NOP", 0x00) ∈ mnemonics ∧ ("DBGP", 0xFF) ∈ mnemonics ∧ mnemonics.length = 36 ∧
    lineText "IPUSH" 0xCAFE 0x0000 0 0 2 (some " Push".toList) = "IPUSH CAFE 0000  ; Push" ∧
    assembleLine "POP   0001 0000" = some 0x1C00010000 := by decide

theorem test_hyp_StepRunsTheDecodedInstruction :
    (State.reset.run = .running ∧ decode (fetch State.reset) = .ok .nop) ∧
    ((State.reset.setByte 0 0x1D).run = .running ∧
      decode (fetch (State.reset.setByte 0 0x1D)) = .error (.illegalOpcode 0x1D)) := by decide

theorem test_hyp_HaltedAndPausedRunNoInstruction :
    (State.reset.setRun .halted).run = .halted ∧ (State.reset.setRun .paused).run = .paused := by decide

/-- A Running state for each stop and for none of them, and states that are not Running. -/
theorem test_hyp_StepStopsExactlyAtTheFourModelStops :
    stopOf (State.reset.setByte 0 0xFE) = some (.illegalOpcode 0xFE) ∧
    stopOf (State.reset.withFetchWord 40 0x02000A0000) = some (.invalidRegister 0xA) ∧
    stopOf (State.reset.withFetchWord 40 0xF100010000) = some (.misalignedJump 1) ∧
    stopOf (State.reset.withFetchWord 40 0x1C00000000) = some (.stackUnderflow 0xFFFF) ∧
    stopOf State.reset = none ∧ State.reset.run = .running ∧ (State.reset.setRun .paused).run ≠ .running := by decide

theorem test_hyp_RegisterIndexAboveNineStops :
    bad (Instr.mov 9 10).regWords = some 10 ∧ bad (Instr.cmp 0xFFFF 10).regWords = some 0xFFFF := by decide

theorem test_hyp_LaunchState : ([] : List Byte).length ≤ 65536 ∧ (List.replicate 65536 (0xFF : Byte)).length ≤ 65536 :=
  ⟨by decide, by rw [List.length_replicate]⟩

/-- A launch over memory that is not empty, with an image. -/
theorem test_hyp_ResetMemoryIsCanonical :
    Memory.wf (Launch.memBefore ⟨#v[1, 2, 3, 4, 5, 6, 7, 8, 9], true, true, true, [(0, 1), (0xFFFF, 2)], [0xF0, 0], 0⟩) := by
  decide

theorem test_hyp_StepKeepsMemoryCanonical : Memory.wf [(0x1000, 0xCA), (0xFFFF, 0xFE)] ∧
    ∃ t, step (regs []) = .next t := ⟨by decide, _, rfl⟩

theorem test_hyp_CanonicalMemoryIsItsBytes :
    Memory.wf [(0, 1), (0xFFFF, 2)] ∧ ∀ x, x < Config.memSize →
      Memory.read [(0, 1), (0xFFFF, 2)] x = Memory.read [(0, 1), (0xFFFF, 2)] x := ⟨by decide, fun _ _ => rfl⟩

/-- pc at 0x0000, and at the last slot 0xFFFF. -/
theorem test_hyp_StepKeepsPcAMultipleOfFive :
    (State.reset.pc.toNat % 5 = 0 ∧ ∃ t, step State.reset = .next t ∧ t.pc = 5) ∧
    ((State.reset.setPc 0xFFFF).pc.toNat % 5 = 0 ∧ ∃ t, step (State.reset.setPc 0xFFFF) = .next t ∧ t.pc = 4) :=
  ⟨⟨by decide, _, rfl, by decide⟩, ⟨by decide, _, rfl, by decide⟩⟩

theorem test_hyp_OnlyStoresAndPushesWriteMemory :
    (∃ t, exec (.stoi 0xFFFF 0x1234) State.reset = .next t) ∧ ∃ t, exec .nop State.reset = .next t :=
  ⟨⟨_, rfl⟩, ⟨_, rfl⟩⟩

theorem test_hyp_OtherInstructionsIgnoreMemory : avoidsMemory (.add 0 1) = true ∧ avoidsMemory (.cmp 0 1) = true := by
  decide

/-- A byte that is neither of the two stored at 0xFFFF. -/
theorem test_hyp_WordAccessIsBigEndian :
    1 ≠ (0xFFFF : Word).toNat ∧ 1 ≠ ((0xFFFF : Word).toNat + 1) % 65536 := by decide

/-- A store into the next instruction, seen at its first and last byte. -/
theorem test_hyp_NextFetchSeesStoredBytes :
    0 < 5 ∧ 4 < 5 ∧ (∃ t, exec (.stoi 5 0xF000) State.reset = .next t) ∧
      ∃ t, exec (.stoi 8 0x1234) State.reset = .next t :=
  ⟨by decide, by decide, ⟨_, rfl⟩, ⟨_, rfl⟩⟩

theorem test_hyp_MovCopiesRegister : (9 : Word).toNat < 10 ∧ bad [10, 11] = some 10 ∧ bad [9, 10] = some 10 := by decide

theorem test_hyp_LdiLoadsImmediate : (9 : Word).toNat < 10 ∧ bad [10] = some 10 := by decide

theorem test_hyp_LdmLoadsWordFromMemory : (0 : Word).toNat < 10 ∧ bad [10] = some 10 := by decide

theorem test_hyp_StoStoresRegister : (9 : Word).toNat < 10 ∧ bad [0xFFFF] = some 0xFFFF := by decide

theorem test_hyp_AddSetsRegisterAndFlags : (9 : Word).toNat < 10 ∧ bad [10, 0] = some 10 ∧ bad [0, 10] = some 10 := by
  decide

theorem test_hyp_AdiSetsRegisterAndFlags : (9 : Word).toNat < 10 ∧ bad [10] = some 10 := by decide

theorem test_hyp_SubSetsRegisterAndFlags : (9 : Word).toNat < 10 ∧ bad [10, 0] = some 10 ∧ bad [0, 10] = some 10 := by
  decide

theorem test_hyp_SubiSetsRegisterAndFlags : (9 : Word).toNat < 10 ∧ bad [10] = some 10 := by decide

theorem test_hyp_OverflowFlagIsSignedRange :
    (∃ t, exec (.add 0 9) State.reset = .next t) ∧ (∃ t, exec (.adi 9 1) State.reset = .next t) ∧
    (∃ t, exec (.sub 0 9) State.reset = .next t) ∧ ∃ t, exec (.subi 9 1) State.reset = .next t :=
  ⟨⟨_, rfl⟩, ⟨_, rfl⟩, ⟨_, rfl⟩, ⟨_, rfl⟩⟩

theorem test_hyp_MulMuliKeepLowHalfOfProduct :
    (9 : Word).toNat < 10 ∧ bad [10, 0] = some 10 ∧ bad [0, 10] = some 10 ∧ bad [10] = some 10 := by decide

/-- A zero and a non-zero divisor, and R8 and another register as destination. -/
theorem test_hyp_DivDiviSetQuotientAndRemainder :
    (9 : Word).toNat < 10 ∧ (8 : Word).toNat < 10 ∧ (1 : Word).toNat ≠ 0 ∧ (0 : Word).toNat = 0 ∧
    (9 : RegIdx) ≠ RegIdx.md ∧ bad [0, 10] = some 10 ∧ bad [10] = some 10 := by decide

theorem test_hyp_AndAndiCombineBits :
    (9 : Word).toNat < 10 ∧ 15 < 16 ∧ bad [10, 0] = some 10 ∧ bad [0, 10] = some 10 ∧ bad [10] = some 10 := by decide

theorem test_hyp_OrOriCombineBits :
    (9 : Word).toNat < 10 ∧ 15 < 16 ∧ bad [10, 0] = some 10 ∧ bad [0, 10] = some 10 ∧ bad [10] = some 10 := by decide

theorem test_hyp_XorXoriCombineBits :
    (9 : Word).toNat < 10 ∧ 15 < 16 ∧ bad [10, 0] = some 10 ∧ bad [0, 10] = some 10 ∧ bad [10] = some 10 := by decide

/-- Counts on both sides of 16. -/
theorem test_hyp_ShrShriShiftRight : (9 : Word).toNat < 10 ∧ ¬ (15 : Word).toNat ≥ 16 ∧ (16 : Word).toNat ≥ 16 ∧
    bad [10, 0] = some 10 ∧ bad [0, 10] = some 10 ∧ bad [10] = some 10 := by decide

/-- Counts on both sides of 16. -/
theorem test_hyp_ShlShliShiftLeft : (9 : Word).toNat < 10 ∧ ¬ (15 : Word).toNat ≥ 16 ∧ (16 : Word).toNat ≥ 16 ∧
    bad [10, 0] = some 10 ∧ bad [0, 10] = some 10 ∧ bad [10] = some 10 := by decide

theorem test_hyp_NotInvertsEveryBit : (9 : Word).toNat < 10 ∧ 0 < 16 ∧ 15 < 16 ∧ bad [10] = some 10 := by decide

theorem test_hyp_PushStoresRegisterBelowStackPointer : (9 : Word).toNat < 10 ∧ bad [10] = some 10 := by decide

/-- R9 = 0xFFFD pops, R9 = 0xFFFE does not; R9 and another register as destination; a word above 9. -/
theorem test_hyp_PopLoadsWordAboveStackPointer :
    (9 : Word).toNat < 10 ∧ ((regs [(9, 0xFFFD)]).reg .sp).toNat + 2 ≤ 0xFFFF ∧
    ((regs [(9, 0xFFFE)]).reg .sp).toNat + 2 > 0xFFFF ∧ (8 : RegIdx) ≠ RegIdx.sp ∧ bad [10] = some 10 := by decide

/-- R9 = 2 pops back, R9 = 1 does not. -/
theorem test_hyp_PopUndoesPush :
    (∃ t, exec (.push 9) (regs [(9, 2)]) = .next t ∧ 2 ≤ ((regs [(9, 2)]).reg .sp).toNat) ∧
    ∃ t, exec (.push 9) (regs [(9, 1)]) = .next t ∧ ((regs [(9, 1)]).reg .sp).toNat < 2 :=
  ⟨⟨_, rfl, by decide⟩, ⟨_, rfl, by decide⟩⟩

/-- A PUSH of R9 and an IPUSH, popped into R0 and R8; and the largest number of pushes. -/
theorem test_hyp_PushesFillDownwardAndPopInReverse :
    State.reset.reg .sp = 0xFFFF ∧ (∀ i ∈ [Instr.push 9, .ipush 0xCAFE], IsPush i) ∧
    (∀ d ∈ [(0 : Word), 8], d.toNat < 9) ∧ [(0 : Word), 8].length = [Instr.push 9, .ipush 0xCAFE].length ∧
    2 * [Instr.push 9, .ipush 0xCAFE].length ≤ 0xFFFF ∧ 2 * (List.replicate 32767 (Instr.ipush 0)).length ≤ 0xFFFF := by
  refine ⟨by decide, ?_, by simp, rfl, by simp, by rw [List.length_replicate]; decide⟩
  intro i hi
  obtain rfl | rfl : i = .push 9 ∨ i = .ipush 0xCAFE := by simpa using hi
  · exact .inr ⟨9, by decide, rfl⟩
  · exact .inl ⟨_, rfl⟩

/-- The last aligned address 0xFFFF, and 0xFFFE. -/
theorem test_hyp_JmpSetsPc : (0xFFFF : Word).toNat % 5 = 0 ∧ (0xFFFE : Word).toNat % 5 ≠ 0 := by decide

theorem test_hyp_CmpSetsZeroAndCarry : (9 : Word).toNat < 10 ∧ bad [10, 0] = some 10 ∧ bad [0, 10] = some 10 := by decide

theorem test_hyp_IfeqJumpsOnZero : (0xFFFF : Word).toNat % 5 = 0 ∧ (1 : Word).toNat % 5 ≠ 0 ∧
    (State.reset.setZC true false).zfl = true ∧ ¬ State.reset.zfl = true := by decide

theorem test_hyp_IfltJumpsOnCarry : (0xFFFF : Word).toNat % 5 = 0 ∧ (1 : Word).toNat % 5 ≠ 0 ∧
    (State.reset.setZC false true).cfl = true ∧ ¬ State.reset.cfl = true := by decide

theorem test_hyp_IfgtJumpsOnNoCarry : (0xFFFF : Word).toNat % 5 = 0 ∧ (1 : Word).toNat % 5 ≠ 0 ∧
    State.reset.cfl = false ∧ ¬ (State.reset.setZC false true).cfl = false := by decide

theorem test_hyp_JumpsAfterCompare : (0xFFFF : Word).toNat % 5 = 0 ∧ ∃ t, exec (.cmp 9 0) State.reset = .next t :=
  ⟨by decide, _, rfl⟩

theorem test_hyp_OnlyArithmeticAndCompareWriteFlags :
    (writesFlags (.and 0 1) = false ∧ ∃ t, exec (.and 0 1) State.reset = .next t) ∧
    ∃ t, exec (.cmp 0 1) State.reset = .next t := ⟨⟨by decide, _, rfl⟩, ⟨_, rfl⟩⟩

/-- R0 over an ADI to R1, and R7 over a DIV to R0. -/
theorem test_hyp_RegistersWrittenAreNamedOrImplicit :
    (∃ t, exec (.adi 1 1) State.reset = .next t) ∧ (∀ w, namedDestination (.adi 1 1) = some w → w.toNat ≠ (0 : RegIdx).val) ∧
    implicitDestination (.adi 1 1) ≠ some 0 ∧
    (∃ t, exec (.div 0 9) State.reset = .next t) ∧ (∀ w, namedDestination (.div 0 9) = some w → w.toNat ≠ (7 : RegIdx).val) ∧
    implicitDestination (.div 0 9) ≠ some 7 :=
  ⟨⟨_, rfl⟩, by rintro w ⟨⟩; decide, by decide, ⟨_, rfl⟩, by rintro w ⟨⟩; decide, by decide⟩

theorem test_hyp_PcAfterEveryInstruction :
    (∃ t, exec .hlt State.reset = .next t) ∧ (∃ t, exec (.jmp 0xFFFF) State.reset = .next t) ∧
    ∃ t, exec .nop (State.reset.setPc 0xFFFF) = .next t := ⟨⟨_, rfl⟩, ⟨_, rfl⟩, ⟨_, rfl⟩⟩

theorem test_hyp_OnlyHltAndDbgpWriteRun :
    (∃ t, exec .hlt State.reset = .next t) ∧ (∃ t, exec .dbgp State.reset = .next t) ∧
    ∃ t, exec .nop State.reset = .next t := ⟨⟨_, rfl⟩, ⟨_, rfl⟩, ⟨_, rfl⟩⟩

theorem test_hyp_HaltedStateIsFinal :
    (State.reset.setRun .halted).run = .halted ∧
    Safety.RunsTo 0 (State.reset.setRun .halted) (State.reset.setRun .halted) ∧
    Safety.RunsTo 1 (State.reset.setRun .halted) (State.reset.setRun .halted) ∧ 0 ≤ 1 :=
  ⟨rfl, rfl, rfl, by decide⟩

end Sys2Proof.Tests
end

section
/-! SUPPORT. Proofs of the memory family (spec/20_memory.md): byte addresses modulo 65536, 16-bit accesses on exact
integers, and the fields of the fetched value. -/

namespace Sys2Proof.Machine

open Sys2Proof Sys2Proof.Claims

/-! ### Addresses and 16-bit accesses (R32, R33, R35) -/

theorem State.byte_eq_read (s : State) (a : Word) : s.byte a = Memory.read s.mem a.toNat := rfl

/-- Address arithmetic wraps at 65536 (R35). -/
theorem State.byte_add (s : State) (a k : Word) :
    s.byte (a + k) = Memory.read s.mem ((a.toNat + k.toNat) % 65536) := by
  rw [State.byte_eq_read, BitVec.toNat_add]

theorem State.read16_toNat (s : State) (a : Word) : (s.read16 a).toNat = wordAt s a := by
  rw [State.read16, joinBytes_toNat, State.byte_eq_read, State.byte_add]
  rfl

theorem State.setByte_read_mem (s : State) (a : Word) (b : Byte) (x : Nat) :
    Memory.read (s.setByte a b).mem x = if x = a.toNat then b else Memory.read s.mem x :=
  Memory.read_write s.mem a.toNat b x

/-- A 16-bit write leaves every byte but its two alone, also at addresses that are no word. -/
theorem State.write16_read_mem_of_ne (s : State) (a v : Word) {x : Nat} (hhigh : x ≠ a.toNat)
    (hlow : x ≠ (a.toNat + 1) % 65536) : Memory.read (s.write16 a v).mem x = Memory.read s.mem x := by
  have hlow' : x ≠ (a + 1).toNat := by rwa [BitVec.toNat_add]
  rw [State.write16, State.setByte_read_mem, if_neg hlow', State.setByte_read_mem, if_neg hhigh]

theorem State.write16_byte_self (s : State) (a v : Word) : (s.write16 a v).byte a = highByte v := by
  rw [State.write16_byte, if_pos rfl]

theorem State.write16_byte_add_one (s : State) (a v : Word) : (s.write16 a v).byte (a + 1) = lowByte v := by
  rw [State.write16_byte, if_neg (Word.add_one_ne a).symm, if_pos rfl]

theorem State.write16_storesWord (s : State) (a v : Word) : StoresWord a v s (s.write16 a v) := by
  refine ⟨?high, ?low, fun x hhigh hlow => s.write16_read_mem_of_ne a v hhigh hlow⟩
  case high => rw [← State.byte_eq_read, State.write16_byte_self, highByte_toNat]
  case low =>
    have h := State.byte_add (s.write16 a v) a 1
    rw [State.write16_byte_add_one] at h
    rw [← lowByte_toNat, h]
    rfl

/-! ### The fetch (R34) -/

/-- Five bytes are an opcode and two big-endian words. -/
theorem joinFive_eq_assemble (b0 b1 b2 b3 b4 : Byte) :
    joinFive b0 b1 b2 b3 b4 = assemble b0 (joinBytes b1 b2) (joinBytes b3 b4) := by
  apply BitVec.eq_of_toNat_eq
  rw [joinFive_toNat, assemble_toNat, joinBytes_toNat, joinBytes_toNat]
  omega

theorem fetch_eq_assemble (s : State) :
    fetch s = assemble (s.byte s.pc) (joinBytes (s.byte (s.pc + 1)) (s.byte (s.pc + 2)))
      (joinBytes (s.byte (s.pc + 3)) (s.byte (s.pc + 4))) :=
  joinFive_eq_assemble _ _ _ _ _

theorem opcodeField_fetch (s : State) : opcodeField (fetch s) = s.byte s.pc := by
  rw [fetch_eq_assemble, opcodeField_assemble]

theorem op1Field_fetch_toNat (s : State) :
    (op1Field (fetch s)).toNat = (s.byte (s.pc + 1)).toNat * 256 + (s.byte (s.pc + 2)).toNat := by
  rw [fetch_eq_assemble, op1Field_assemble, joinBytes_toNat]

theorem op2Field_fetch_toNat (s : State) :
    (op2Field (fetch s)).toNat = (s.byte (s.pc + 3)).toNat * 256 + (s.byte (s.pc + 4)).toNat := by
  rw [fetch_eq_assemble, op2Field_assemble, joinBytes_toNat]

theorem fetch_toNat (s : State) :
    (fetch s).toNat = (s.byte s.pc).toNat * 2 ^ 32 + (s.byte (s.pc + 1)).toNat * 2 ^ 24 +
      (s.byte (s.pc + 2)).toNat * 2 ^ 16 + (s.byte (s.pc + 3)).toNat * 2 ^ 8 + (s.byte (s.pc + 4)).toNat :=
  joinFive_toNat _ _ _ _ _

/-! ### The obligations -/

/-- Settles O8: the fetched value is assembled from five bytes, and each byte's address wraps by `State.byte_add`. -/
theorem fetchIsFiveBytesFromPc : Obligations.FetchIsFiveBytesFromPc := by
  intro s
  have h1 := s.byte_add s.pc 1
  have h2 := s.byte_add s.pc 2
  have h3 := s.byte_add s.pc 3
  have h4 := s.byte_add s.pc 4
  refine ⟨opcodeField_fetch s, ?op1, ?op2, ?whole⟩
  case op1 => rw [op1Field_fetch_toNat, h1, h2]; rfl
  case op2 => rw [op2Field_fetch_toNat, h3, h4]; rfl
  case whole => rw [fetch_toNat, h1, h2, h3, h4]; rfl

/-- Settles O19: a word read after a word write is the read of `State.write16_read16_self` on exact integers. -/
theorem wordAccessIsBigEndian : Obligations.WordAccessIsBigEndian := by
  intro s a v
  have hback : wordAt (s.write16 a v) a = v.toNat := by
    rw [← State.read16_toNat, State.write16_read16_self]
  exact ⟨s.byte_eq_read a, s.setByte_read_mem a, s.read16_toNat a, s.write16_storesWord a v, hback⟩

end Sys2Proof.Machine
end

section
/-! SUPPORT. Proofs of the encoding family (spec/30_encoding.md): the opcode map. -/

namespace Sys2Proof

open Sys2Proof.Claims

/-! ### Undefined opcodes (R57) -/

/-- Every arm of the opcode map but the last stands at one of the 36 opcodes. -/
theorem decodeFields_of_not_isOpcode {op : Byte} (hop : ¬ isOpcode op) (a b : Word) :
    decodeFields op a b = .error (.illegalOpcode op) := by
  unfold isOpcode at hop
  unfold decodeFields
  split
  case h_37 => rfl
  all_goals omega

theorem decode_of_not_isOpcode {op : Byte} (hop : ¬ isOpcode op) (a b : Word) :
    decode (op ++ a ++ b) = .error (.illegalOpcode op) :=
  (decode_assemble op a b).trans (decodeFields_of_not_isOpcode hop a b)

/-! ### The obligations -/

/-- Settles O3: a defined opcode's line is `decode_assemble` with the opcode map evaluated at that opcode; any other
opcode decodes to an error. -/
theorem opcodeMapDecodes : Obligations.OpcodeMapDecodes := by
  intro a b
  refine ⟨?undefined, ?defined⟩
  case undefined =>
    intro op hop i hi
    rw [decode_of_not_isOpcode hop] at hi
    cases hi
  case defined => and_intros <;> exact decode_assemble _ a b

end Sys2Proof
end

section
/-! SUPPORT. Proofs of the data control family (spec/40_data_controls.md): the stop on a bad register word, the move of
pc, and the frames of one register write and of one word store. -/

namespace Sys2Proof.Machine

open Sys2Proof Sys2Proof.Claims

/-! ### The InvalidRegister stop (R54) -/

theorem withReg_stopsOnBadRegister (w : Word) (k : RegIdx → Result) : StopsOnBadRegister [w] (withReg w k) := by
  intro v hv
  have hbad : 9 < v.toNat := by simpa only [decide_eq_true_eq] using List.find?_some hv
  obtain rfl := List.mem_singleton.mp (List.mem_of_find?_eq_some hv)
  exact withReg_of_not_lt (Nat.not_lt.mpr hbad) k

/-- The first word is checked before the second, so a bad second word is reported only behind a good first one. -/
theorem withRegs_stopsOnBadRegister (w1 w2 : Word) (k : RegIdx → RegIdx → Result) :
    StopsOnBadRegister [w1, w2] (withRegs w1 w2 k) := by
  intro v hv
  by_cases h1 : w1.toNat < 10
  · rw [List.find?_cons_of_neg (by simpa using Nat.le_of_lt_succ h1)] at hv
    rw [withRegs, withReg_of_lt h1]
    exact withReg_stopsOnBadRegister w2 _ v hv
  · have hbad : 9 < w1.toNat := Nat.not_lt.mp h1
    rw [List.find?_cons_of_pos (by simpa using hbad)] at hv
    cases hv
    exact withReg_of_not_lt h1 _

/-! ### The frames of the family -/

/-- The move to the next instruction wraps at 65536 (R14). -/
theorem State.advance_pcPlusFive {s t : State} (hpc : t.pc = s.pc) : PcPlusFive s t.advance := by
  rw [PcPlusFive, State.advance_pc, hpc, BitVec.toNat_add]
  rfl

theorem State.advance_onlyRegs (s : State) : OnlyRegs [] s s.advance :=
  ⟨fun q _ => s.advance_reg q, ⟨rfl, rfl, rfl⟩, fun _ => rfl, s.advance_run, State.advance_pcPlusFive rfl⟩

theorem State.setReg_advance_onlyRegs (s : State) (d : RegIdx) (v : Word) : OnlyRegs [d] s (s.setReg d v).advance := by
  have hregs : SameRegsBut [d] s (s.setReg d v).advance := fun q hq =>
    s.setReg_reg_of_ne v (List.ne_of_not_mem_cons hq)
  exact ⟨hregs, ⟨rfl, rfl, rfl⟩, fun _ => rfl, rfl, State.advance_pcPlusFive (s.setReg_pc d v)⟩

theorem State.write16_advance_frame (s : State) (a v : Word) :
    StoresWord a v s (s.write16 a v).advance ∧ SameRegsBut [] s (s.write16 a v).advance ∧
      SameFlags s (s.write16 a v).advance ∧ SameRun s (s.write16 a v).advance ∧
      PcPlusFive s (s.write16 a v).advance :=
  ⟨s.write16_storesWord a v, fun q _ => s.write16_reg a v q, ⟨rfl, rfl, rfl⟩, s.write16_run a v,
    State.advance_pcPlusFive (s.write16_pc a v)⟩

/-! ### The obligations -/

/-- Settles O24: both register words are good and one register is written, or the check of the words stops. -/
theorem movCopiesRegister : Obligations.MovCopiesRegister := by
  intro d r s
  refine ⟨decode_assemble 0x01 d r, fun hd hr => ?effect, withRegs_stopsOnBadRegister d r _⟩
  exact ⟨_, withRegs_of_lt hd hr _, s.setReg_reg_self _ _, s.setReg_advance_onlyRegs _ _⟩

/-- Settles O25: one register is written with the immediate. -/
theorem ldiLoadsImmediate : Obligations.LdiLoadsImmediate := by
  intro d imm s
  refine ⟨decode_assemble 0x02 d imm, fun hd => ?effect, withReg_stopsOnBadRegister d _⟩
  exact ⟨_, withReg_of_lt hd _, s.setReg_reg_self _ _, s.setReg_advance_onlyRegs _ _⟩

/-- Settles O26: one register is written with the word that `State.read16_toNat` gives on exact integers. -/
theorem ldmLoadsWordFromMemory : Obligations.LdmLoadsWordFromMemory := by
  intro d addr s
  refine ⟨decode_assemble 0x03 d addr, fun hd => ?effect, withReg_stopsOnBadRegister d _⟩
  refine ⟨_, withReg_of_lt hd _, ?loaded, s.setReg_advance_onlyRegs _ _⟩
  rw [State.advance_reg, State.setReg_reg_self, State.read16_toNat]

/-- Settles O27: one word is stored, the value that the named register holds. -/
theorem stoStoresRegister : Obligations.StoStoresRegister := by
  intro addr r s
  refine ⟨decode_assemble 0x04 addr r, fun hr => ?effect, withReg_stopsOnBadRegister r _⟩
  exact ⟨_, withReg_of_lt hr _, s.write16_advance_frame addr _⟩

/-- Settles O28: one word is stored, and nothing is checked before. -/
theorem stoiStoresImmediate : Obligations.StoiStoresImmediate := by
  intro addr imm s
  exact ⟨decode_assemble 0x05 addr imm, _, rfl, s.write16_advance_frame addr imm⟩

/-- Settles O23: the operand words do not reach the term, and both instructions are `State.advance`. -/
theorem nopAndBlnkOnlyAdvancePc : Obligations.NopAndBlnkOnlyAdvancePc := by
  intro a b s
  exact ⟨decode_assemble 0x00 a b, decode_assemble 0x06 a b, ⟨_, rfl, s.advance_onlyRegs⟩,
    ⟨_, rfl, s.advance_onlyRegs⟩⟩

end Sys2Proof.Machine
end

section
/-! SUPPORT. Proofs of the arithmetic and bitwise family (spec/41_arith_bitwise.md): the flag conditions on exact
integers, the rules of addition and subtraction, and the rule of a bit-by-bit combination. -/

namespace Sys2Proof.Machine

open Sys2Proof Sys2Proof.Claims

/-! ### The flag conditions (R82, R83) -/

@[simp] theorem isZero_eq_true_iff {r : Word} : isZero r = true ↔ r.toNat = 0 := decide_eq_true_iff

@[simp] theorem addCarry_eq_true_iff {a b : Word} : addCarry a b = true ↔ a.toNat + b.toNat > 0xFFFF :=
  decide_eq_true_iff

@[simp] theorem addOverflow_eq_true_iff {a b r : Word} :
    addOverflow a b r = true ↔ a.getLsbD 15 = b.getLsbD 15 ∧ r.getLsbD 15 ≠ a.getLsbD 15 := decide_eq_true_iff

@[simp] theorem borrow_eq_true_iff {a b : Word} : borrow a b = true ↔ a.toNat < b.toNat := decide_eq_true_iff

@[simp] theorem subOverflow_eq_true_iff {a b r : Word} :
    subOverflow a b r = true ↔ a.getLsbD 15 ≠ b.getLsbD 15 ∧ r.getLsbD 15 ≠ a.getLsbD 15 := decide_eq_true_iff

/-! ### Addition and subtraction (R86 to R89) -/

theorem addInto_reg_self (d : RegIdx) (b : Word) (s : State) : (addInto d b s).reg d = s.reg d + b := by
  rw [addInto_reg, if_pos rfl]

theorem subInto_reg_self (d : RegIdx) (b : Word) (s : State) : (subInto d b s).reg d = s.reg d - b := by
  rw [subInto_reg, if_pos rfl]

theorem addInto_sameRegsBut (d : RegIdx) (b : Word) (s : State) : SameRegsBut [d] s (addInto d b s) := by
  intro q hq
  rw [addInto_reg, if_neg (List.ne_of_not_mem_cons hq)]

theorem subInto_sameRegsBut (d : RegIdx) (b : Word) (s : State) : SameRegsBut [d] s (subInto d b s) := by
  intro q hq
  rw [subInto_reg, if_neg (List.ne_of_not_mem_cons hq)]

/-- The difference of two words, in the form of R88's pseudocode. -/
theorem Word.sub_toNat (a b : Word) : (a - b).toNat = (a.toNat + 65536 - b.toNat) % 65536 := by
  have hb := b.isLt
  rw [BitVec.toNat_sub]
  omega

theorem addInto_addRule (d : RegIdx) (b : Word) (s : State) : AddRule d b s (addInto d b s) := by
  rw [AddRule, addInto_reg_self]
  exact ⟨BitVec.toNat_add _ _, isZero_eq_true_iff, addCarry_eq_true_iff, addOverflow_eq_true_iff,
    addInto_sameRegsBut d b s, fun _ => rfl, addInto_run d b s, State.advance_pcPlusFive rfl⟩

theorem subInto_subRule (d : RegIdx) (b : Word) (s : State) : SubRule d b s (subInto d b s) := by
  rw [SubRule, subInto_reg_self]
  exact ⟨Word.sub_toNat _ _, isZero_eq_true_iff, borrow_eq_true_iff, subOverflow_eq_true_iff,
    subInto_sameRegsBut d b s, fun _ => rfl, subInto_run d b s, State.advance_pcPlusFive rfl⟩

/-! ### Bit by bit (R94 to R99, R104) -/

theorem combineInto_reg_self (f : Word → Word → Word) (d : RegIdx) (b : Word) (s : State) :
    (combineInto f d b s).reg d = f (s.reg d) b := by
  rw [combineInto_reg, if_pos rfl]

theorem combineInto_onlyRegs (f : Word → Word → Word) (d : RegIdx) (b : Word) (s : State) :
    OnlyRegs [d] s (combineInto f d b s) := s.setReg_advance_onlyRegs d _

/-- A word operation `f` that works bit by bit as `g` gives its instruction the bitwise rule of `g`. -/
theorem combineInto_bitsRule {f : Word → Word → Word} {g : Bool → Bool → Bool}
    (hbit : ∀ {x y : Word} {k : Nat}, (f x y).getLsbD k = g (x.getLsbD k) (y.getLsbD k))
    (d : RegIdx) (b : Word) (s : State) : BitsRule g d b s (combineInto f d b s) := by
  refine ⟨fun k _ => ?bit, combineInto_onlyRegs f d b s⟩
  case bit => rw [combineInto_reg_self, hbit]

/-- 0xFFFF has every bit set, so the exclusive or with it, which is NOT's meaning, is the complement (R104). -/
theorem Word.xor_ones (x : Word) : x ^^^ 0xFFFF = ~~~x := BitVec.xor_allOnes

/-! ### The obligations -/

/-- Settles O29: both register words are good and the sum is stored, or the check of the words stops. -/
theorem addSetsRegisterAndFlags : Obligations.AddSetsRegisterAndFlags := by
  intro d r s
  refine ⟨decode_assemble 0x07 d r, fun hd hr => ?effect, withRegs_stopsOnBadRegister d r _⟩
  exact ⟨_, withRegs_of_lt hd hr _, addInto_addRule _ _ s⟩

/-- Settles O30: ADI is the addition of O29 with the immediate as its second source value. -/
theorem adiSetsRegisterAndFlags : Obligations.AdiSetsRegisterAndFlags := by
  intro d imm s
  refine ⟨decode_assemble 0x08 d imm, fun hd => ?effect, withReg_stopsOnBadRegister d _⟩
  exact ⟨_, withReg_of_lt hd _, addInto_addRule _ imm s⟩

/-- Settles O31: both register words are good and the difference is stored, or the check of the words stops. -/
theorem subSetsRegisterAndFlags : Obligations.SubSetsRegisterAndFlags := by
  intro d r s
  refine ⟨decode_assemble 0x09 d r, fun hd hr => ?effect, withRegs_stopsOnBadRegister d r _⟩
  exact ⟨_, withRegs_of_lt hd hr _, subInto_subRule _ _ s⟩

/-- Settles O32: SUBI is the subtraction of O31 with the immediate as its second source value. -/
theorem subiSetsRegisterAndFlags : Obligations.SubiSetsRegisterAndFlags := by
  intro d imm s
  refine ⟨decode_assemble 0x0A d imm, fun hd => ?effect, withReg_stopsOnBadRegister d _⟩
  exact ⟨_, withReg_of_lt hd _, subInto_subRule _ imm s⟩

/-- Settles O36: both forms are one bit-by-bit combination, and AND of words is AND of their bits. -/
theorem andAndiCombineBits : Obligations.AndAndiCombineBits := by
  intro d r imm s
  refine ⟨decode_assemble 0x0F d r, decode_assemble 0x10 d imm, fun hd hr => ?regForm, fun hd => ?immForm,
    withRegs_stopsOnBadRegister d r _, withReg_stopsOnBadRegister d _⟩
  case regForm => exact ⟨_, withRegs_of_lt hd hr _, combineInto_bitsRule BitVec.getLsbD_and _ _ s⟩
  case immForm => exact ⟨_, withReg_of_lt hd _, combineInto_bitsRule BitVec.getLsbD_and _ imm s⟩

/-- Settles O37: both forms are one bit-by-bit combination, and OR of words is OR of their bits. -/
theorem orOriCombineBits : Obligations.OrOriCombineBits := by
  intro d r imm s
  refine ⟨decode_assemble 0x11 d r, decode_assemble 0x12 d imm, fun hd hr => ?regForm, fun hd => ?immForm,
    withRegs_stopsOnBadRegister d r _, withReg_stopsOnBadRegister d _⟩
  case regForm => exact ⟨_, withRegs_of_lt hd hr _, combineInto_bitsRule BitVec.getLsbD_or _ _ s⟩
  case immForm => exact ⟨_, withReg_of_lt hd _, combineInto_bitsRule BitVec.getLsbD_or _ imm s⟩

/-- Settles O38: both forms are one bit-by-bit combination, and XOR of words is inequality of their bits. -/
theorem xorXoriCombineBits : Obligations.XorXoriCombineBits := by
  intro d r imm s
  refine ⟨decode_assemble 0x13 d r, decode_assemble 0x14 d imm, fun hd hr => ?regForm, fun hd => ?immForm,
    withRegs_stopsOnBadRegister d r _, withReg_stopsOnBadRegister d _⟩
  case regForm => exact ⟨_, withRegs_of_lt hd hr _, combineInto_bitsRule BitVec.getLsbD_xor _ _ s⟩
  case immForm => exact ⟨_, withReg_of_lt hd _, combineInto_bitsRule BitVec.getLsbD_xor _ imm s⟩

/-- Settles O41: one register is written with its complement (`Word.xor_ones`); op2 does not reach the term. -/
theorem notInvertsEveryBit : Obligations.NotInvertsEveryBit := by
  intro d x s
  refine ⟨decode_assemble 0x19 d x, fun hd => ?effect, withReg_stopsOnBadRegister d _⟩
  refine ⟨_, withReg_of_lt hd _, fun k hk => ?bit, combineInto_onlyRegs _ _ _ s⟩
  rw [combineInto_reg_self, Word.xor_ones, BitVec.getLsbD_not, decide_eq_true hk, Bool.true_and]

end Sys2Proof.Machine
end

section
/-! SUPPORT. Proofs of the flow control family (spec/43_flow_controls.md): the one rule of a jump, taken or not. -/

namespace Sys2Proof.Machine

open Sys2Proof Sys2Proof.Claims

/-! ### Jumps (R120, R127) -/

theorem State.setPc_onlyPc (s : State) (target : Word) : OnlyPc s (s.setPc target) :=
  ⟨fun q _ => s.setPc_reg target q, ⟨rfl, rfl, rfl⟩, fun _ => rfl, s.setPc_run target⟩

theorem State.advance_onlyPc (s : State) : OnlyPc s s.advance :=
  ⟨fun q _ => s.advance_reg q, ⟨rfl, rfl, rfl⟩, fun _ => rfl, s.advance_run⟩

/-- The three answers of `branch_cases` are the three lines of the rule, each excluding the other two. -/
theorem branch_branchRule {c : Bool} {taken : Prop} (hc : c = true ↔ taken) (target : Word) (s : State) :
    BranchRule taken target s (branch c target s) := by
  rcases branch_cases c target s with ⟨hfalse, e⟩ | ⟨htrue, h5, e⟩ | ⟨htrue, h5, e⟩
  · have hnot : ¬ taken := fun ht => Bool.eq_false_iff.mp hfalse (hc.mpr ht)
    exact ⟨fun ht => absurd ht hnot, fun ht => absurd ht hnot,
      fun _ => ⟨_, e, State.advance_pcPlusFive rfl, s.advance_onlyPc⟩⟩
  · have ht : taken := hc.mp htrue
    exact ⟨fun _ _ => ⟨_, e, s.setPc_pc target, s.setPc_onlyPc target⟩, fun _ hmis => absurd h5 hmis, absurd ht⟩
  · have ht : taken := hc.mp htrue
    exact ⟨fun _ hal => absurd hal h5, fun _ _ => e, absurd ht⟩

/-- An unconditional jump is the branch that is always taken. -/
theorem takeJump_eq_branch (target : Word) (s : State) : takeJump target s = branch true target s := rfl

/-! ### The obligations -/

/-- Settles O49: JMP is the branch that is always taken. -/
theorem jmpSetsPc : Obligations.JmpSetsPc := by
  intro target x s
  refine ⟨decode_assemble 0xF1 target x, ?rule⟩
  rw [exec, execJmp, takeJump_eq_branch]
  exact branch_branchRule (iff_of_true rfl trivial) target s

/-- Settles O51: IFEQ is the branch on ZFL. -/
theorem ifeqJumpsOnZero : Obligations.IfeqJumpsOnZero := by
  intro target x s
  exact ⟨decode_assemble 0xF3 target x, branch_branchRule Iff.rfl target s⟩

/-- Settles O52: IFLT is the branch on CFL. -/
theorem ifltJumpsOnCarry : Obligations.IfltJumpsOnCarry := by
  intro target x s
  exact ⟨decode_assemble 0xF4 target x, branch_branchRule Iff.rfl target s⟩

/-- Settles O53: IFGT is the branch on the negation of CFL, so it is taken exactly when CFL is FALSE. -/
theorem ifgtJumpsOnNoCarry : Obligations.IfgtJumpsOnNoCarry := by
  intro target x s
  have htaken : (!s.cfl) = true ↔ s.cfl = false := iff_of_eq (Bool.not_eq_true' s.cfl)
  exact ⟨decode_assemble 0xF5 target x, branch_branchRule htaken target s⟩

end Sys2Proof.Machine
end

section
/-! SUPPORT. Proofs on decoder and encoder as inverses (spec/30_encoding.md): what the opcode map gives at every defined
opcode, and which bits of a value the encoder gives back. -/

namespace Sys2Proof

open Sys2Proof.Machine Sys2Proof.Claims

/-! ### The opcode map at a defined opcode (R55) -/

theorem decodeFields_opcode_operands (i : Instr) : decodeFields i.opcode i.operands.1 i.operands.2 = .ok i := by
  cases i <;> rfl

theorem exists_decodeFields_of_isOpcode {op : Byte} (hop : isOpcode op) (a b : Word) :
    ∃ i, decodeFields op a b = .ok i := by
  unfold isOpcode at hop
  unfold decodeFields
  split
  case h_37 => exfalso; simp only [imp_false] at *; omega
  all_goals exact ⟨_, rfl⟩

/-- An instruction has the opcode byte it was decoded from. -/
theorem opcode_of_decodeFields {op : Byte} {a b : Word} {i : Instr} (h : decodeFields op a b = .ok i) :
    i.opcode = op := by
  unfold decodeFields at h
  split at h
  case h_37 => cases h
  all_goals
    next hop =>
    cases h
    exact BitVec.eq_of_toNat_eq hop.symm

/-! ### The used bits (R53) -/

/-- Masking an assembled value masks each of its fields. -/
theorem assemble_and (op op' : Byte) (a a' b b' : Word) :
    assemble op a b &&& assemble op' a' b' = assemble (op &&& op') (a &&& a') (b &&& b') := by
  rw [assemble, assemble, BitVec.and_append, BitVec.and_append, assemble]

theorem assemble_and_opcodeMask (op : Byte) (a b : Word) : assemble op a b &&& 0xFF00000000 = assemble op 0 0 := by
  have h := assemble_and op (BitVec.allOnes 8) a 0#16 b 0#16
  rwa [BitVec.and_allOnes, BitVec.and_zero, BitVec.and_zero] at h

theorem assemble_and_op1Mask (op : Byte) (a b : Word) : assemble op a b &&& 0xFFFFFF0000 = assemble op a 0 := by
  have h := assemble_and op (BitVec.allOnes 8) a (BitVec.allOnes 16) b 0#16
  rwa [BitVec.and_allOnes, BitVec.and_allOnes, BitVec.and_zero] at h

theorem assemble_and_op2Mask (op : Byte) (a b : Word) : assemble op a b &&& 0xFFFFFFFFFF = assemble op a b :=
  BitVec.and_allOnes

/-- Three shapes of instruction: with no used operand word, with op1 alone, and with both. -/
theorem encode_of_decodeFields {op : Byte} {a b : Word} {i : Instr} (h : decodeFields op a b = .ok i) :
    encode i = assemble op a b &&& i.usedBits := by
  obtain rfl := opcode_of_decodeFields h
  cases i
  case nop | blnk | hlt | dbgp => exact (assemble_and_opcodeMask _ a b).symm
  case not | push | ipush | pop | jmp | ifeq | iflt | ifgt => cases h; exact (assemble_and_op1Mask _ a b).symm
  all_goals cases h; exact (assemble_and_op2Mask _ a b).symm

/-! ### The roles of the table (R51, R53) -/

/-- `f` gives the instruction of a row's opcode from its operand words, and treats each word as the row's roles say. -/
structure FollowsRow (row : OpcodeRow) (f : Word → Word → Instr) : Prop where
  decodes : ∀ a b, decodeFields row.opcode a b = .ok (f a b)
  regWords : ∀ a b, (f a b).regWords = (if row.op1 = .reg then [a] else []) ++ (if row.op2 = .reg then [b] else [])
  ignores1 : row.op1 = .none → ∀ a a' b, f a' b = f a b
  ignores2 : row.op2 = .none → ∀ a b b', f a b' = f a b

theorem exists_followsRow : ∀ row ∈ opcodeTable, ∃ f, FollowsRow row f := by
  simp only [opcodeTable, dataControlRows, arithRows, bitwiseRows, stackAndFlowRows, List.forall_mem_append,
    List.forall_mem_cons, List.not_mem_nil, false_imp_iff, implies_true, and_true]
  and_intros
  all_goals exact ⟨_, fun _ _ => rfl, fun _ _ => rfl, by rintro ⟨⟩ <;> exact fun _ _ _ => rfl,
    by rintro ⟨⟩ <;> exact fun _ _ _ => rfl⟩

/-! ### The obligations -/

/-- Settles O1: the fields of an encoded instruction are its opcode and operand words, where the opcode map gives it
back. -/
theorem decodeOfEncodeIsTheInstruction : Obligations.DecodeOfEncodeIsTheInstruction := by
  intro i
  rw [encode, decode_assemble]
  exact decodeFields_opcode_operands i

/-- Settles O2: a value is its three fields, and the encoder gives each back under its part of the mask. -/
theorem encodeOfDecodeKeepsTheUsedBits : Obligations.EncodeOfDecodeKeepsTheUsedBits := by
  intro w i h
  have henc := encode_of_decodeFields h
  rwa [assemble_fields] at henc

/-- Settles O4: every arm of the opcode map but the last stands at a defined opcode and keeps it. -/
theorem decodeRefusesExactlyUndefinedOpcodes : Obligations.DecodeRefusesExactlyUndefinedOpcodes := by
  intro op a b
  refine ⟨fun hop => ?defined, fun hop => decode_of_not_isOpcode hop a b⟩
  obtain ⟨i, hi⟩ := exists_decodeFields_of_isOpcode hop a b
  exact ⟨i, (decode_assemble op a b).trans hi, opcode_of_decodeFields hi⟩

/-- Settles O5: each row's opcode has one instruction, which uses the two words as the row's roles say. -/
theorem operandRolesFollowTheTable : Obligations.OperandRolesFollowTheTable := by
  intro row hrow a b
  obtain ⟨f, hf⟩ := exists_followsRow row hrow
  have hdec (x y : Word) : decode (row.opcode ++ x ++ y) = .ok (f x y) :=
    (decode_assemble row.opcode x y).trans (hf.decodes x y)
  refine ⟨f a b, hdec a b, hf.regWords a b, fun h1 a' => ?_, fun h2 b' => ?_⟩
  · rw [hdec, hf.ignores1 h1 a a' b]
  · rw [hdec, hf.ignores2 h2 a b b']

/-- Settles O6: each value's fields are evaluated, and the opcode map at them. -/
theorem specWordsDecode : Obligations.SpecWordsDecode := by
  and_intros <;> rfl

end Sys2Proof
end

section
/-! SUPPORT. Proofs of the assembler line (spec/30_encoding.md R60): hexadecimal digits read back, a written line's
three pieces, and the mnemonics as the opcode table's. -/

namespace Sys2Proof.Machine

open Sys2Proof Sys2Proof.Claims

/-! ### Characters of a piece -/

/-- A character that neither ends a piece nor starts a comment. -/
def PlainChar (c : Char) : Prop := (c ≠ ' ' ∧ c ≠ '\t') ∧ c ≠ ';'

theorem plainChar_hexChar {n : Nat} (hn : n < 16) : PlainChar (hexChar n) := by
  unfold PlainChar
  revert n
  decide

theorem hexDigit_hexChar {n : Nat} (hn : n < 16) : hexDigit (hexChar n) = some n := by
  revert n
  decide

theorem plainChar_of_mem_hexText {w : Word} {c : Char} (hc : c ∈ hexText w) : PlainChar c := by
  have hw := w.isLt
  simp only [hexText, List.mem_cons, List.not_mem_nil, or_false] at hc
  rcases hc with rfl | rfl | rfl | rfl <;> exact plainChar_hexChar (by omega)

/-- Reading a word's four digits gives the word. -/
theorem hexWord_hexText (w : Word) : hexWord (hexText w) = some w := by
  have hw := w.isLt
  simp only [hexText, hexWord]
  rw [hexDigit_hexChar (by omega), hexDigit_hexChar (by omega), hexDigit_hexChar (by omega),
    hexDigit_hexChar (by omega)]
  refine congrArg some (BitVec.eq_of_toNat_eq ?_)
  rw [BitVec.toNat_ofNat]
  omega

/-! ### The mnemonics -/

/-- The mnemonics and opcodes written out in the statements are the opcode table's. -/
theorem mnemonics_eq_map_opcodeTable : mnemonics = opcodeTable.map fun row => (row.mnemonic, row.opcode) := rfl

theorem assembleWords_of_mem_mnemonics : ∀ p ∈ mnemonics, ∀ a b, assembleWords p.1 a b = some (assemble p.2 a b) := by
  simp only [mnemonics, mnemonicsLow, mnemonicsHigh, List.forall_mem_append, List.forall_mem_cons, List.not_mem_nil,
    false_imp_iff, implies_true, and_true]
  and_intros
  all_goals exact fun _ _ => rfl

theorem plainChar_mnemonics : ∀ p ∈ mnemonics, p.1.toList ≠ [] ∧ ∀ c ∈ p.1.toList, PlainChar c := by
  simp only [mnemonics, mnemonicsLow, mnemonicsHigh, List.forall_mem_append, List.forall_mem_cons, List.not_mem_nil,
    false_imp_iff, implies_true, and_true]
  and_intros
  all_goals simp [PlainChar]

/-! ### A written line -/

/-- A piece of plain characters and the blanks after it are cut off together. -/
theorem splitBlanks_piece_blanks {piece : List Char} (hne : piece ≠ []) (hplain : ∀ c ∈ piece, PlainChar c) (n : Nat)
    (ys : List Char) :
    splitBlanks [] (piece ++ (List.replicate (n + 1) ' ' ++ ys)) = piece :: splitBlanks [] ys := by
  have hrev : piece.reverse ++ [] ≠ [] := by simpa using hne
  rw [splitBlanks_append (fun c hc => (hplain c hc).1), splitBlanks_piece hrev]
  simp

theorem splitBlanks_last_piece {piece : List Char} (hne : piece ≠ []) (hplain : ∀ c ∈ piece, PlainChar c) (n : Nat) :
    splitBlanks [] (piece ++ List.replicate n ' ') = [piece] := by
  cases n with
  | zero => rw [splitBlanks_append (fun c hc => (hplain c hc).1)]; simp [splitBlanks, hne]
  | succ n => simpa [splitBlanks] using splitBlanks_piece_blanks hne hplain n []

theorem dropComment_commentText (comment : Option (List Char)) : dropComment (commentText comment) = [] := by
  cases comment with
  | none => rfl
  | some text => exact dropComment_semicolon text

theorem dropComment_lineText {m : String} (hm : ∀ c ∈ m.toList, PlainChar c) (a b : Word) (j k l : Nat)
    (comment : Option (List Char)) :
    dropComment (lineText m a b j k l comment).toList =
      m.toList ++ (List.replicate (j + 1) ' ' ++ (hexText a ++ (List.replicate (k + 1) ' ' ++
        (hexText b ++ List.replicate l ' ')))) := by
  have hblank (n : Nat) : ∀ c ∈ List.replicate n ' ', c ≠ ';' := fun c hc => by
    rw [List.eq_of_mem_replicate hc]; decide
  have hhex (w : Word) : ∀ c ∈ hexText w, c ≠ ';' := fun c hc => (plainChar_of_mem_hexText hc).2
  rw [lineText, String.toList_ofList]
  simp only [List.append_assoc]
  rw [dropComment_append fun c hc => (hm c hc).2, dropComment_append (hblank _), dropComment_append (hhex a),
    dropComment_append (hblank _), dropComment_append (hhex b), dropComment_append (hblank _),
    dropComment_commentText, List.append_nil]

theorem splitBlanks_lineText {m : String} (hne : m.toList ≠ []) (hm : ∀ c ∈ m.toList, PlainChar c) (a b : Word)
    (j k l : Nat) (comment : Option (List Char)) :
    splitBlanks [] (dropComment (lineText m a b j k l comment).toList) = [m.toList, hexText a, hexText b] := by
  have hhex (w : Word) : ∀ c ∈ hexText w, PlainChar c := fun c => plainChar_of_mem_hexText
  have hhexne (w : Word) : hexText w ≠ [] := List.cons_ne_nil _ _
  rw [dropComment_lineText hm, splitBlanks_piece_blanks hne hm,
    splitBlanks_piece_blanks (hhexne a) (hhex a), splitBlanks_last_piece (hhexne b) (hhex b)]

/-! ### The obligation -/

/-- Settles O7: a written line is cut into its mnemonic and its two words, which are read back; and a line that
assembles names a row of the table, so one of the 36 mnemonics. -/
theorem assemblerLineIsOpcodeAndWords : Obligations.AssemblerLineIsOpcodeAndWords := by
  refine ⟨fun p hp a b j k l comment => ?written, fun line w h => ?read⟩
  case written =>
    obtain ⟨hne, hplain⟩ := plainChar_mnemonics p hp
    simp only [assembleLine, splitBlanks_lineText hne hplain, hexWord_hexText, String.ofList_toList]
    exact assembleWords_of_mem_mnemonics p hp a b
  case read =>
    obtain ⟨m, x, y, a, b, hsplit, hx, hy, hw⟩ := assembleLine_eq_some h
    obtain ⟨row, hrow, hm, rfl⟩ := assembleWords_eq_some hw
    refine ⟨m, x, y, hsplit, hexWord_eq_some hx, hexWord_eq_some hy, ?_⟩
    rw [opcodeField_assemble, ← hm, mnemonics_eq_map_opcodeTable]
    exact List.mem_map_of_mem hrow

end Sys2Proof.Machine
end

section
/-! SUPPORT. What every completed instruction leaves in memory, pc, the run state, the flags and the registers: one
lemma per field over `Effect`, and the whole-machine rules and invariants that follow from it. -/

namespace Sys2Proof.Machine

open Sys2Proof Sys2Proof.Claims

variable {i : Instr} {s t : State}

/-! ### Memory after an instruction (spec/20_memory.md R30) -/

/-- An instruction leaves memory alone, or makes the one 16-bit write that `storeOf` names. -/
theorem Effect.mem_cases (h : Effect i s t) :
    (storeOf i s = none ∧ t.mem = s.mem) ∨ ∃ a v, storeOf i s = some (a, v) ∧ t.mem = (s.write16 a v).mem := by
  cases h
  case sto addr r hr => exact .inr ⟨addr, _, dif_pos hr, rfl⟩
  case stoi addr imm => exact .inr ⟨addr, imm, rfl, rfl⟩
  case push r hr => exact .inr ⟨_, _, dif_pos hr, rfl⟩
  case ipush imm => exact .inr ⟨_, imm, rfl, rfl⟩
  all_goals exact .inl ⟨rfl, rfl⟩

theorem Effect.mem_wf (h : Effect i s t) (hwf : Memory.wf s.mem) : Memory.wf t.mem := by
  rcases h.mem_cases with ⟨_, hmem⟩ | ⟨a, v, _, hmem⟩ <;> rw [hmem]
  · exact hwf
  · exact State.write16_mem_wf hwf a v

theorem State.byte_congr (hmem : t.mem = s.mem) (x : Word) : t.byte x = s.byte x := by
  rw [State.byte_eq_read, State.byte_eq_read, hmem]

/-- Each byte of a fetched value is the byte of memory at its place after pc (R34). -/
theorem fetch_extract_byte (s : State) {k : Nat} (hk : k < 5) :
    (fetch s).extractLsb' (32 - 8 * k) 8 = s.byte (s.pc + BitVec.ofNat 16 k) := by
  have h0 := (s.byte s.pc).isLt
  have h1 := (s.byte (s.pc + 1)).isLt
  have h2 := (s.byte (s.pc + 2)).isLt
  have h3 := (s.byte (s.pc + 3)).isLt
  have h4 := (s.byte (s.pc + 4)).isLt
  have hzero : s.pc + 0#16 = s.pc := BitVec.add_zero s.pc
  apply BitVec.eq_of_toNat_eq
  rw [BitVec.extractLsb'_toNat, fetch_toNat, Nat.shiftRight_eq_div_pow]
  interval_cases k
  · rw [hzero]; omega
  · show _ = (s.byte (s.pc + 1)).toNat; omega
  · show _ = (s.byte (s.pc + 2)).toNat; omega
  · show _ = (s.byte (s.pc + 3)).toNat; omega
  · show _ = (s.byte (s.pc + 4)).toNat; omega

/-! ### pc and the run state after an instruction (spec/10_state.md R14, R17) -/

/-- HLT keeps pc, a taken jump sets it to its aligned target, everything else moves it on by 5. -/
theorem Effect.pc_cases (h : Effect i s t) :
    (i = .hlt ∧ t.pc = s.pc) ∨
      (i ≠ .hlt ∧ ∃ a, takenTarget i s = some a ∧ a.toNat % 5 = 0 ∧ t.pc = a) ∨
      (i ≠ .hlt ∧ takenTarget i s = none ∧ t.pc = s.pc + 5) := by
  cases h
  case hlt => exact .inl ⟨rfl, rfl⟩
  case jmp a h5 => exact .inr (.inl ⟨nofun, a, rfl, h5, rfl⟩)
  case ifeqTaken a h5 hc => exact .inr (.inl ⟨nofun, a, if_pos hc, h5, rfl⟩)
  case ifltTaken a h5 hc => exact .inr (.inl ⟨nofun, a, if_pos hc, h5, rfl⟩)
  case ifgtTaken a h5 hc => exact .inr (.inl ⟨nofun, a, if_neg (Bool.eq_false_iff.mp hc), h5, rfl⟩)
  case ifeqNotTaken a hc => exact .inr (.inr ⟨nofun, if_neg (Bool.eq_false_iff.mp hc), rfl⟩)
  case ifltNotTaken a hc => exact .inr (.inr ⟨nofun, if_neg (Bool.eq_false_iff.mp hc), rfl⟩)
  case ifgtNotTaken a hc => exact .inr (.inr ⟨nofun, if_pos hc, rfl⟩)
  all_goals exact .inr (.inr ⟨nofun, rfl, rfl⟩)

/-- Adding 5 keeps a multiple of 5, but for the wrap from 0xFFFF (R36). -/
theorem Word.add_five_mod_five {pc : Word} (h5 : pc.toNat % 5 = 0) :
    (pc + 5).toNat % 5 = 0 ∨ (pc.toNat = 0xFFFF ∧ (pc + 5).toNat = 0x0004) := by
  have hlt := pc.isLt
  have hadd : (pc + 5).toNat = (pc.toNat + 5) % 65536 := BitVec.toNat_add pc 5
  by_cases htop : pc.toNat = 0xFFFF
  · exact .inr ⟨htop, by rw [hadd, htop]⟩
  · rw [Nat.mod_eq_of_lt (by omega)] at hadd
    omega

theorem Effect.pc_mod_five (h : Effect i s t) (h5 : s.pc.toNat % 5 = 0) :
    t.pc.toNat % 5 = 0 ∨ (s.pc.toNat = 0xFFFF ∧ t.pc.toNat = 0x0004) := by
  rcases h.pc_cases with ⟨_, hpc⟩ | ⟨_, a, _, ha, hpc⟩ | ⟨_, _, hpc⟩ <;> rw [hpc]
  · exact .inl h5
  · exact .inl ha
  · exact Word.add_five_mod_five h5

theorem Effect.run_eq (h : Effect i s t) :
    t.run = if i = .hlt then .halted else if i = .dbgp then .paused else s.run := by
  cases h <;> rfl

/-! ### Flags and registers after an instruction (spec/41_arith_bitwise.md R84, spec/10_state.md R11 to R13) -/

theorem Effect.sameFlags (h : Effect i s t) (hi : writesFlags i = false) : SameFlags s t := by
  cases h
  case add | adi | sub | subi | mul | muli | div | divi | cmp => cases hi
  all_goals exact ⟨rfl, rfl, rfl⟩

theorem mulInto_sameRegsBut (o : Byte) (d : RegIdx) (b : Word) (s : State) : SameRegsBut [d] s (mulInto o d b s) := by
  intro q hq
  rw [mulInto_reg, if_neg (List.ne_of_not_mem_cons hq)]

theorem divInto_sameRegsBut (o : Byte) (d : RegIdx) (b : Word) (s : State) :
    SameRegsBut [d, .md] s (divInto o d b s) := by
  intro q hq
  obtain ⟨hd, hmd⟩ := List.ne_and_not_mem_of_not_mem_cons hq
  rw [divInto_reg, if_neg (List.ne_of_not_mem_cons hmd), if_neg hd]

theorem pushWord_sameRegsBut (v : Word) (s : State) : SameRegsBut [.sp] s (pushWord v s).advance := fun _ hq =>
  pushWord_reg_of_ne v s (List.ne_of_not_mem_cons hq)

theorem popInto_sameRegsBut (d : RegIdx) (s : State) : SameRegsBut [d, .sp] s (popInto d s).advance := by
  intro q hq
  obtain ⟨hd, hsp⟩ := List.ne_and_not_mem_of_not_mem_cons hq
  rw [State.advance_reg, popInto_reg_of_ne d s (List.ne_of_not_mem_cons hsp), if_neg hd]

theorem not_mem_of_named {d : Word} {q : RegIdx} (hnamed : ∀ w, some d = some w → w.toNat ≠ q.val)
    (hd : d.toNat < 10) : q ∉ [(⟨d.toNat, hd⟩ : RegIdx)] := by
  rw [List.mem_singleton]
  rintro rfl
  exact hnamed d rfl rfl

theorem not_mem_cons_of_implicit {d q r : RegIdx} (hd : q ∉ [d]) (himplicit : some r ≠ some q) : q ∉ [d, r] := by
  have hr : q ∉ [r] := fun hq => himplicit (congrArg some (List.mem_singleton.mp hq).symm)
  exact List.not_mem_cons_of_ne_of_not_mem (List.ne_of_not_mem_cons hd) hr

/-- A register that an instruction neither names nor writes implicitly keeps its value. -/
theorem Effect.reg_eq (h : Effect i s t) {q : RegIdx} (hnamed : ∀ w, namedDestination i = some w → w.toNat ≠ q.val)
    (himplicit : implicitDestination i ≠ some q) : t.reg q = s.reg q := by
  cases h
  case mov | ldi | ldm => exact (s.setReg_advance_onlyRegs _ _).1 q (not_mem_of_named hnamed _)
  case add | adi => exact addInto_sameRegsBut _ _ s q (not_mem_of_named hnamed _)
  case sub | subi => exact subInto_sameRegsBut _ _ s q (not_mem_of_named hnamed _)
  case mul | muli => exact mulInto_sameRegsBut _ _ _ s q (not_mem_of_named hnamed _)
  case div | divi =>
    exact divInto_sameRegsBut _ _ _ s q (not_mem_cons_of_implicit (not_mem_of_named hnamed _) himplicit)
  case and | andi | or | ori | xor | xori | shr | shri | shl | shli | not =>
    exact (combineInto_onlyRegs _ _ _ s).1 q (not_mem_of_named hnamed _)
  case push | ipush => exact pushWord_reg_of_ne _ s fun hq => himplicit (congrArg some hq.symm)
  case pop => exact popInto_sameRegsBut _ s q (not_mem_cons_of_implicit (not_mem_of_named hnamed _) himplicit)
  all_goals rfl

/-! ### The obligations -/

/-- Settles O16: an instruction makes at most one 16-bit write, which keeps the canonical form, and a step outside
Running leaves memory alone. -/
theorem stepKeepsMemoryCanonical : Obligations.StepKeepsMemoryCanonical := by
  intro s t hwf hstep
  rcases step_next_cases hstep with ⟨_, i, _, heff⟩ | ⟨_, rfl⟩ | ⟨_, rfl | rfl⟩
  · exact heff.mem_wf hwf
  · exact hwf
  · exact hwf
  · exact hwf

/-- Settles O15: nothing listed is canonical, and loading the image writes bytes inside the address space. -/
theorem resetMemoryIsCanonical : Obligations.ResetMemoryIsCanonical :=
  ⟨⟨.nil, nofun⟩, fun l hwf => State.loadBytes_mem_wf hwf 0x0000 l.image⟩

/-- Settles O18: an instruction keeps pc, sets it to an aligned target or adds 5; a step outside Running keeps it. -/
theorem stepKeepsPcAMultipleOfFive : Obligations.StepKeepsPcAMultipleOfFive := by
  intro s t h5 hstep
  rcases step_next_cases hstep with ⟨_, i, _, heff⟩ | ⟨_, rfl⟩ | ⟨_, rfl | rfl⟩
  · exact heff.pc_mod_five h5
  · exact .inl h5
  · exact .inl h5
  · exact .inl h5

/-- Settles O20: the two bytes of the one 16-bit write are read back, every other byte is the old one. -/
theorem onlyStoresAndPushesWriteMemory : Obligations.OnlyStoresAndPushesWriteMemory := by
  intro i s t h x
  rcases (effect_of_exec h).mem_cases with ⟨hstore, hmem⟩ | ⟨a, v, hstore, hmem⟩ <;> rw [hstore]
  · exact State.byte_congr hmem x
  · exact (State.byte_congr hmem x).trans (State.write16_byte s a v x)

/-- Settles O22: each fetched byte is a byte of memory, to which O20 applies. -/
theorem nextFetchSeesStoredBytes : Obligations.NextFetchSeesStoredBytes := by
  intro i s t k hk h
  rw [fetch_extract_byte t hk]
  exact onlyStoresAndPushesWriteMemory i s t h _

/-- Settles O55: outside the nine instructions nothing writes a flag, and CMP's effect keeps OFL. -/
theorem onlyArithmeticAndCompareWriteFlags : Obligations.OnlyArithmeticAndCompareWriteFlags := by
  intro i s t h
  have heff := effect_of_exec h
  refine ⟨heff.sameFlags, ?cmp⟩
  rintro ⟨a, b, rfl⟩
  cases heff
  rfl

/-- Settles O56: over the effects, a register is written only by `setReg` of the named one or of the implicit one. -/
theorem registersWrittenAreNamedOrImplicit : Obligations.RegistersWrittenAreNamedOrImplicit := fun _ _ _ _ h =>
  (effect_of_exec h).reg_eq

/-- Settles O57: the three ways pc can end are the three branches. -/
theorem pcAfterEveryInstruction : Obligations.PcAfterEveryInstruction := by
  intro i s t h
  rcases (effect_of_exec h).pc_cases with ⟨hi, hpc⟩ | ⟨hi, a, ha, _, hpc⟩ | ⟨hi, hnone, hpc⟩
  · rwa [if_pos hi]
  · rwa [if_neg hi, ha]
  · rw [if_neg hi, hnone]
    show t.pc.toNat = (s.pc.toNat + 5) % 65536
    rw [hpc]
    exact BitVec.toNat_add s.pc 5

/-- Settles O58: HLT and DBGP write their run state, every other effect keeps it. -/
theorem onlyHltAndDbgpWriteRun : Obligations.OnlyHltAndDbgpWriteRun := fun _ _ _ h => (effect_of_exec h).run_eq

end Sys2Proof.Machine
end

section
/-! SUPPORT. Proofs on memory as data: a canonical memory is its bytes (spec/10_state.md R18), and the state after reset
and load (spec/70_reset_and_hazards.md R160, R161). -/

namespace Sys2Proof.Machine

open Sys2Proof Sys2Proof.Claims

/-! ### A canonical memory lists exactly the bytes that differ from an unlisted one -/

theorem Memory.read_of_mem {m : Memory} (hm : m.Pairwise fun c c' => c.1 < c'.1) {c : Host.Cell} (hc : c ∈ m) :
    Memory.read m c.1 = c.2 := by
  induction m with
  | nil => cases hc
  | cons d m ih =>
    obtain ⟨hhead, htail⟩ := List.pairwise_cons.mp hm
    rcases List.mem_cons.mp hc with rfl | hc
    · exact if_pos rfl
    · exact (if_neg (Nat.ne_of_lt (hhead c hc))).trans (ih htail hc)

theorem Memory.mem_of_read_ne {m : Memory} {a : Nat} (h : Memory.read m a ≠ unlistedByte) :
    (a, Memory.read m a) ∈ m := by
  induction m with
  | nil => exact absurd rfl h
  | cons d m ih =>
    obtain ⟨k, v⟩ := d
    unfold Memory.read at h ⊢
    split
    · next hk => subst hk; exact List.mem_cons_self
    · next hk => rw [if_neg hk] at h; exact List.mem_cons_of_mem _ (ih h)

theorem Memory.wf.mem_of_mem {m m' : Memory} (hm : Memory.wf m)
    (hread : ∀ x, x < Config.memSize → Memory.read m x = Memory.read m' x) {c : Host.Cell} (hc : c ∈ m) : c ∈ m' := by
  obtain ⟨hlt, hne⟩ := hm.2 c hc
  have hval : Memory.read m' c.1 = c.2 := by rw [← hread c.1 hlt, Memory.read_of_mem hm.1 hc]
  have hmem := Memory.mem_of_read_ne (hval ▸ hne)
  rwa [hval] at hmem

/-! ### Loading an image -/

/-- Loading bytes changes nothing but memory. -/
theorem State.loadBytes_eq (s : State) (a : Word) (bs : List Byte) :
    s.loadBytes a bs = { s with mem := (s.loadBytes a bs).mem } := by
  induction bs generalizing s a with
  | nil => rfl
  | cons b bs ih => exact ih (s.setByte a b) (a + 1)

/-- Bytes loaded from `n` upward, with room below 65536, stand there, and the others are what they were. -/
theorem State.loadBytes_read (s : State) (n : Nat) (bs : List Byte) (hfit : n + bs.length ≤ 65536) (x : Nat) :
    Memory.read (s.loadBytes (BitVec.ofNat 16 n) bs).mem x =
      if x < n then Memory.read s.mem x else (bs[x - n]?).getD (Memory.read s.mem x) := by
  induction bs generalizing s n with
  | nil => simp [State.loadBytes]
  | cons b bs ih =>
    rw [List.length_cons] at hfit
    have hn : (BitVec.ofNat 16 n).toNat = n := by rw [BitVec.toNat_ofNat]; omega
    have hnext : BitVec.ofNat 16 n + 1 = BitVec.ofNat 16 (n + 1) := (BitVec.ofNat_add n 1).symm
    rw [State.loadBytes, hnext, ih _ (n + 1) (by omega), State.setByte_read_mem, hn]
    rcases Nat.lt_trichotomy x n with hx | rfl | hx
    · rw [if_pos (by omega), if_neg (by omega), if_pos hx]
    · simp
    · obtain ⟨j, rfl⟩ : ∃ j, x = n + 1 + j := ⟨x - (n + 1), by omega⟩
      have hj : n + 1 + j - n = j + 1 := by omega
      rw [if_neg (by omega), if_neg (by omega), if_neg (by omega), hj, Nat.add_sub_cancel_left, List.getElem?_cons_succ]

/-- The state before the load, in the values that a launch leaves open. -/
def Launch.before (l : Launch) : State where
  regs := l.regs0to8.push 0xFFFF
  pc := 0x0000
  zfl := l.zfl
  cfl := l.cfl
  ofl := l.ofl
  mem := l.memBefore
  run := .running
  draws := l.draws

theorem State.launch_eq (l : Launch) : State.launch l = { l.before with mem := (State.launch l).mem } :=
  State.loadBytes_eq l.before 0x0000 l.image

theorem State.launch_reg (l : Launch) (r : RegIdx) : (State.launch l).reg r = l.before.reg r := by
  rw [State.launch_eq]
  rfl

theorem State.launch_read (l : Launch) (hfit : l.image.length ≤ 65536) (x : Nat) :
    Memory.read (State.launch l).mem x =
      if h : x < l.image.length then l.image[x] else Memory.read l.memBefore x := by
  refine (State.loadBytes_read l.before 0 l.image (by omega) x).trans ?_
  rw [if_neg (Nat.not_lt_zero x), Nat.sub_zero]
  split
  · next h => rw [List.getElem?_eq_getElem h, Option.getD_some]
  · next h => rw [List.getElem?_eq_none (Nat.not_lt.mp h), Option.getD_none]; rfl

/-! ### The obligations -/

/-- Settles O17: two canonical memories that read alike list the same bytes, each in rising order. -/
theorem canonicalMemoryIsItsBytes : Obligations.CanonicalMemoryIsItsBytes := by
  intro m m' hm hm' hread
  have hmem (c : Host.Cell) : c ∈ m ↔ c ∈ m' :=
    ⟨hm.mem_of_mem hread, hm'.mem_of_mem fun x hx => (hread x hx).symm⟩
  have hirrefl : Std.Irrefl fun c c' : Host.Cell => c.1 < c'.1 := ⟨fun c => Nat.lt_irrefl c.1⟩
  have hantisymm : Std.Antisymm fun c c' : Host.Cell => c.1 < c'.1 :=
    ⟨fun c c' h h' => absurd (Nat.lt_trans h h') (Nat.lt_irrefl c.1)⟩
  exact hm.1.eq_of_mem_iff hm'.1 hmem

/-- Settles O14: loading the image changes memory alone; `State.reset` is the launch with nothing loaded and zeros for
what is left open. -/
theorem launchState : Obligations.LaunchState := by
  refine ⟨fun l => ?launch, ⟨Vector.replicate 9 0, false, false, false, [], [], 0⟩, rfl⟩
  have heq := State.launch_eq l
  refine ⟨congrArg State.pc heq, ?sp, congrArg State.run heq, fun k hk => ?low, congrArg State.zfl heq,
    congrArg State.cfl heq, congrArg State.ofl heq, State.launch_read l⟩
  case sp => rw [State.launch_reg]; exact Vector.getElem_push_eq
  case low => rw [State.launch_reg]; exact Vector.getElem_push_lt hk

end Sys2Proof.Machine
end

section
/-! SUPPORT. Proofs on the model stops (spec/60_exceptions.md R141, R144): an instruction, and so a step, answers
exactly what the table of stops says. -/

namespace Sys2Proof.Machine

open Sys2Proof Sys2Proof.Claims

/-! ### Answers of an instruction -/

/-- The outcome is the model stop, if one is given, and otherwise a next state. -/
def Answers : Option Fault → Result → Prop
  | some f, o => o = .fault f
  | none, o => ∃ t, o = .next t

theorem Answers.fault_iff {stop : Option Fault} {o : Result} (h : Answers stop o) (f : Fault) :
    o = .fault f ↔ stop = some f := by
  cases stop with
  | none => obtain ⟨t, rfl⟩ := h; exact ⟨nofun, nofun⟩
  | some g => obtain rfl := h; simp

theorem Answers.ne_refused {stop : Option Fault} {o : Result} (h : Answers stop o) (r : Refusal) : o ≠ .refused r := by
  cases stop with
  | none => obtain ⟨t, rfl⟩ := h; nofun
  | some g => obtain rfl := h; nofun

/-- The register check stands first in every instruction with register operands (R54). -/
theorem exec_stopsOnBadRegister (i : Instr) (s : State) : StopsOnBadRegister i.regWords (exec i s) := by
  cases i
  case nop | stoi | blnk | ipush | hlt | jmp | ifeq | iflt | ifgt | dbgp => exact nofun
  case mov | add | sub | mul | div | and | or | xor | shr | shl | cmp => exact withRegs_stopsOnBadRegister _ _ _
  all_goals exact withReg_stopsOnBadRegister _ _

theorem takeJump_answers (target : Word) (s : State) :
    Answers (if target.toNat % 5 ≠ 0 then some (.misalignedJump target) else none) (takeJump target s) := by
  rcases takeJump_cases target s with ⟨h5, e⟩ | ⟨h5, e⟩
  · rw [if_neg (not_not.mpr h5)]; exact ⟨_, e⟩
  · rw [if_pos h5]; exact e

theorem execPop_of_le {d : Word} (hd : d.toNat < 10) {s : State} (hsp : (s.reg .sp).toNat + 2 ≤ 0xFFFF) :
    exec (.pop d) s = .next (popInto ⟨d.toNat, hd⟩ s).advance := by
  rw [exec, execPop, withReg_of_lt hd, popUnderflows_eq_false.mpr hsp]
  rfl

theorem execPop_of_gt {d : Word} (hd : d.toNat < 10) {s : State} (hsp : (s.reg .sp).toNat + 2 > 0xFFFF) :
    exec (.pop d) s = .fault (.stackUnderflow (s.reg .sp)) := by
  have hunder : popUnderflows s = true := decide_eq_true hsp
  rw [exec, execPop, withReg_of_lt hd, hunder]
  rfl

theorem execPop_answers {d : Word} (hd : d.toNat < 10) (s : State) :
    Answers (if (s.reg .sp).toNat + 2 > 0xFFFF then some (.stackUnderflow (s.reg .sp)) else none)
      (exec (.pop d) s) := by
  split
  · next h => exact execPop_of_gt hd h
  · next h => exact ⟨_, execPop_of_le hd (Nat.not_lt.mp h)⟩

/-- With good register words only POP and the jumps can stop (R114, R127). -/
theorem exec_answers_of_good {i : Instr} (s : State) (hgood : i.regWords.find? (fun w => decide (9 < w.toNat)) = none) :
    Answers (stopOfInstr i s) (exec i s) := by
  have hlt : ∀ w ∈ i.regWords, w.toNat < 10 := fun w hw => by
    simpa [Nat.lt_succ_iff] using List.find?_eq_none.mp hgood w hw
  simp only [stopOfInstr, hgood]
  cases i
  case nop | stoi | blnk | ipush | hlt | dbgp => exact ⟨_, rfl⟩
  case mov | add | sub | mul | div | and | or | xor | shr | shl | cmp =>
    exact ⟨_, withRegs_of_lt (hlt _ (by simp [Instr.regWords])) (hlt _ (by simp [Instr.regWords])) _⟩
  case pop d => exact execPop_answers (hlt d (by simp [Instr.regWords])) s
  case jmp a => exact takeJump_answers a s
  case ifeq a =>
    simp only [takenTarget, exec, execIfeq, branch]
    cases s.zfl
    · exact ⟨_, rfl⟩
    · exact takeJump_answers a s
  case iflt a =>
    simp only [takenTarget, exec, execIflt, branch]
    cases s.cfl
    · exact ⟨_, rfl⟩
    · exact takeJump_answers a s
  case ifgt a =>
    simp only [takenTarget, exec, execIfgt, branch]
    cases s.cfl
    · exact takeJump_answers a s
    · exact ⟨_, rfl⟩
  all_goals exact ⟨_, withReg_of_lt (hlt _ (by simp [Instr.regWords])) _⟩

theorem exec_answers (i : Instr) (s : State) : Answers (stopOfInstr i s) (exec i s) := by
  cases hbad : i.regWords.find? (fun w => decide (9 < w.toNat)) with
  | none => exact exec_answers_of_good s hbad
  | some w =>
    simp only [stopOfInstr, hbad]
    exact exec_stopsOnBadRegister i s w hbad

/-! ### Answers of a step -/

theorem runStep_answers (s : State) : Answers (stopOf s) (runStep s) := by
  unfold stopOf runStep
  cases decode (fetch s) with
  | ok i => exact exec_answers i s
  | error e => cases e; rfl

/-- A CPU that is not Running takes its step. -/
theorem step_next_of_not_running {s : State} (h : s.run ≠ .running) : ∃ t, step s = .next t := by
  cases hr : s.run with
  | running => exact absurd hr h
  | halted => exact ⟨s, step_of_halted hr⟩
  | paused => exact ⟨_, step_of_paused hr⟩

/-! ### The obligations -/

/-- Settles O13: the register check stands first in every instruction. -/
theorem registerIndexAboveNineStops : Obligations.RegisterIndexAboveNineStops := fun i s =>
  exec_stopsOnBadRegister i s

/-- Settles O11: a step of a Running CPU answers what `stopOf` says. -/
theorem stepStopsExactlyAtTheFourModelStops : Obligations.StepStopsExactlyAtTheFourModelStops := by
  intro s
  refine ⟨fun hr f => ?fault, fun hr hnone => ?next, step_next_of_not_running⟩
  case fault => rw [step_of_running hr]; exact (runStep_answers s).fault_iff f
  case next =>
    have h := runStep_answers s
    rw [hnone] at h
    rwa [step_of_running hr]

/-- Settles O12: a step answers a stop of the table or a next state. -/
theorem noStepIsRefused : Obligations.NoStepIsRefused := by
  intro s r
  by_cases hr : s.run = .running
  · rw [step_of_running hr]; exact (runStep_answers s).ne_refused r
  · obtain ⟨t, ht⟩ := step_next_of_not_running hr
    rw [ht]
    exact nofun

/-- Settles O9: the step adds nothing to fetch, decode and `exec`. -/
theorem stepRunsTheDecodedInstruction : Obligations.StepRunsTheDecodedInstruction := by
  intro s hr
  rw [step_of_running hr, runStep]
  refine ⟨fun i hi => ?decoded, fun b hb => ?undefined⟩
  case decoded => rw [hi]
  case undefined => rw [hb]; rfl

/-- Settles O10: resuming writes the run state, and counting a draw no field of the spec's. -/
theorem haltedAndPausedRunNoInstruction : Obligations.HaltedAndPausedRunNoInstruction := by
  intro s
  refine ⟨step_of_halted, fun hr => ?paused⟩
  rw [step_of_paused hr]
  rcases pausedStep_cases s with e | e
  · exact ⟨_, e, .inl hr, rfl, fun _ _ => rfl, ⟨rfl, rfl, rfl⟩, fun _ => rfl⟩
  · exact ⟨_, e, .inr rfl, rfl, fun _ _ => rfl, ⟨rfl, rfl, rfl⟩, fun _ => rfl⟩

end Sys2Proof.Machine
end

section
/-! SUPPORT. Proofs on what a run can depend on: data memory (spec/20_memory.md R30), OFL (spec/10_state.md R16), and
that a Halted state stays (R17). -/

namespace Sys2Proof.Machine

open Sys2Proof Sys2Proof.Claims

/-! ### A change of state carried through an outcome -/

/-- The register check does not look at the state, so a change of state commutes with it. -/
theorem mapNext_withReg (f : State → State) (w : Word) (k : RegIdx → Result) :
    mapNext f (withReg w k) = withReg w fun r => mapNext f (k r) := by
  by_cases hw : w.toNat < 10
  · rw [withReg_of_lt hw, withReg_of_lt hw]
  · rw [withReg_of_not_lt hw, withReg_of_not_lt hw, mapNext]

theorem withReg_eq_mapNext {f : State → State} {w : Word} {k k' : RegIdx → Result}
    (h : ∀ r, k' r = mapNext f (k r)) : withReg w k' = mapNext f (withReg w k) := by
  rw [mapNext_withReg, funext h]

theorem mapNext_withReg_congr {f : State → State} {w : Word} {k k' : RegIdx → Result}
    (h : ∀ r, mapNext f (k r) = mapNext f (k' r)) : mapNext f (withReg w k) = mapNext f (withReg w k') := by
  rw [mapNext_withReg, mapNext_withReg, funext h]

/-- A jump writes pc alone, so it commutes with a change of state that leaves pc alone. -/
theorem mapNext_branch {f : State → State} {s : State} (hf : ∀ v, f (s.setPc v) = (f s).setPc v)
    (hpc : (f s).pc = s.pc) (c : Bool) (target : Word) : mapNext f (branch c target s) = branch c target (f s) := by
  have hadv : f s.advance = (f s).advance := by rw [State.advance, State.advance, hf, hpc]
  cases c with
  | false => exact congrArg Host.Outcome.next hadv
  | true =>
    by_cases h5 : target.toNat % 5 = 0
    · simp only [branch, takeJump, if_pos h5, if_true, mapNext, hf]
    · simp only [branch, takeJump, if_neg h5, if_true, mapNext, raise]

/-- Outcomes that a change of state makes equal are equal, or both a next state. -/
theorem mapNext_eq_cases {f : State → State} {o o' : Result} (h : mapNext f o = mapNext f o') :
    o = o' ∨ ∃ t t', o = .next t ∧ o' = .next t' ∧ f t = f t' := by
  cases o with
  | next t =>
    cases o' with
    | next t' => exact .inr ⟨t, t', rfl, rfl, Host.Outcome.next.inj h⟩
    | fault e => cases h
    | refused r => cases h
  | fault e =>
    cases o' with
    | next t' => cases h
    | fault e' => exact .inl h
    | refused r => cases h
  | refused r =>
    cases o' with
    | next t' => cases h
    | fault e => cases h
    | refused r' => exact .inl h

/-! ### Other contents of memory -/

/-- `s` with `m` as its memory. -/
def State.withMem (m : Memory) (s : State) : State := { s with mem := m }

theorem branch_withMem (c : Bool) (target : Word) (s : State) (m : Memory) :
    branch c target (s.withMem m) = mapNext (State.withMem m) (branch c target s) :=
  (mapNext_branch (fun _ => rfl) rfl c target).symm

/-! ### OFL is written and never read -/

/-- The outcome with OFL forgotten. -/
abbrev forgetOfl : Result → Result := mapNext fun t => t.setOfl false

theorem forgetOfl_branch_setOfl (c : Bool) (target : Word) (s : State) (b : Bool) :
    forgetOfl (branch c target (s.setOfl b)) = forgetOfl (branch c target s) := by
  rw [forgetOfl, mapNext_branch (fun _ => rfl) rfl, mapNext_branch (fun _ => rfl) rfl]
  rfl

theorem forgetOfl_exec_setOfl (i : Instr) (s : State) (b : Bool) :
    forgetOfl (exec i (s.setOfl b)) = forgetOfl (exec i s) := by
  cases i
  case nop | stoi | blnk | ipush | hlt | dbgp => rfl
  case mov | add | sub | mul | div | and | or | xor | shr | shl | cmp =>
    exact mapNext_withReg_congr fun _ => mapNext_withReg_congr fun _ => rfl
  case pop d =>
    refine mapNext_withReg_congr fun r => ?_
    show mapNext _ (if popUnderflows s then _ else _) = mapNext _ (if popUnderflows s then _ else _)
    cases popUnderflows s <;> rfl
  case jmp a => exact forgetOfl_branch_setOfl true a s b
  case ifeq a => exact forgetOfl_branch_setOfl s.zfl a s b
  case iflt a => exact forgetOfl_branch_setOfl s.cfl a s b
  case ifgt a => exact forgetOfl_branch_setOfl (!s.cfl) a s b
  all_goals exact mapNext_withReg_congr fun _ => rfl

theorem forgetOfl_step_setOfl (s : State) (b : Bool) : forgetOfl (step (s.setOfl b)) = forgetOfl (step s) := by
  cases hr : s.run with
  | running =>
    have hfetch : fetch (s.setOfl b) = fetch s := rfl
    rw [step_of_running hr, step_of_running (by rwa [State.setOfl_run]), runStep, runStep, hfetch]
    cases decode (fetch s) with
    | ok i => exact forgetOfl_exec_setOfl i s b
    | error e => rfl
  | halted => rw [step_of_halted hr, step_of_halted (by rwa [State.setOfl_run])]; rfl
  | paused =>
    rw [step_of_paused hr, step_of_paused (by rwa [State.setOfl_run]), pausedStep, pausedStep, State.setOfl_draws]
    split <;> rfl

theorem forgetOfl_runFor_setOfl (k : Nat) (s : State) (b : Bool) :
    forgetOfl (Safety.runFor k (s.setOfl b)) = forgetOfl (Safety.runFor k s) := by
  induction k generalizing s b with
  | zero => rfl
  | succ k ih =>
    rw [Safety.runFor_succ, Safety.runFor_succ]
    rcases mapNext_eq_cases (forgetOfl_step_setOfl s b) with heq | ⟨t, t', ht, ht', hofl⟩
    · rw [heq]
    · have hback : t = t'.setOfl t.ofl := calc
        t = (t.setOfl false).setOfl t.ofl := rfl
        _ = (t'.setOfl false).setOfl t.ofl := by rw [hofl]
        _ = t'.setOfl t.ofl := rfl
      rw [ht, ht', hback]
      exact ih t' t.ofl

end Sys2Proof.Machine

namespace Sys2Proof.Safety

open Sys2Proof.Machine Sys2Proof.Claims

theorem runFor_of_halted {t : State} (ht : t.run = .halted) (n : Nat) : runFor n t = .next t := by
  induction n with
  | zero => rfl
  | succ n ih => rw [runFor_succ, step_of_halted ht]; exact ih

/-! ### The obligations -/

/-- Settles O21: the instructions that avoid memory read and write other fields of the state alone. -/
theorem otherInstructionsIgnoreMemory : Obligations.OtherInstructionsIgnoreMemory := by
  intro i s m hi
  cases i
  case ldm | sto | stoi | push | ipush | pop => cases hi
  case nop | blnk | hlt | dbgp => rfl
  case jmp a => exact branch_withMem true a s m
  case ifeq a => exact branch_withMem s.zfl a s m
  case iflt a => exact branch_withMem s.cfl a s m
  case ifgt a => exact branch_withMem (!s.cfl) a s m
  case mov | add | sub | mul | div | and | or | xor | shr | shl | cmp =>
    exact withReg_eq_mapNext fun _ => withReg_eq_mapNext fun _ => rfl
  all_goals exact withReg_eq_mapNext fun _ => rfl

/-- Settles O59: no step reads OFL, so the difference in it never reaches anything else. -/
theorem overflowFlagIsUnobservable : Obligations.OverflowFlagIsUnobservable := forgetOfl_runFor_setOfl

/-- Settles O60: the longer run is the shorter one and then steps of a Halted CPU. -/
theorem haltedStateIsFinal : Obligations.HaltedStateIsFinal := by
  intro s t u k n hk ht hn hle
  obtain ⟨m, rfl⟩ := Nat.exists_eq_add_of_le hle
  rw [RunsTo, runFor_add, hk] at hn
  exact Host.Outcome.next.inj (hn.symm.trans (runFor_of_halted ht m))

end Sys2Proof.Safety
end

section
/-! SUPPORT. Proofs of the arithmetic family (spec/41_arith_bitwise.md), second part: the signed range behind OFL,
products, quotients and shifts on exact integers. -/

namespace Sys2Proof.Machine

open Sys2Proof Sys2Proof.Claims

/-! ### OFL on exact signed integers (R83) -/

/-- The sign bit is set from 0x8000 on. -/
theorem Word.getLsbD_fifteen (v : Word) : v.getLsbD 15 = decide (0x8000 ≤ v.toNat) := BitVec.msb_eq_decide v

theorem addOverflow_iff_outsideSigned (a b : Word) :
    addOverflow a b (a + b) = true ↔ OutsideSigned (signed16 a + signed16 b) := by
  have ha := a.isLt
  have hb := b.isLt
  simp only [addOverflow_eq_true_iff, Word.getLsbD_fifteen, decide_eq_decide, ne_eq, OutsideSigned, signed16,
    BitVec.toNat_add]
  split <;> split <;> omega

theorem subOverflow_iff_outsideSigned (a b : Word) :
    subOverflow a b (a - b) = true ↔ OutsideSigned (signed16 a - signed16 b) := by
  have ha := a.isLt
  have hb := b.isLt
  simp only [subOverflow_eq_true_iff, Word.getLsbD_fifteen, decide_eq_decide, ne_eq, OutsideSigned, signed16,
    Word.sub_toNat]
  split <;> split <;> omega

/-! ### Products and quotients (R90 to R93, R106) -/

@[simp] theorem mulOverflow_eq_true_iff {a b : Word} : mulOverflow a b = true ↔ a.toNat * b.toNat > 0xFFFF :=
  decide_eq_true_iff

theorem mulInto_mulRule (o : Byte) (d : RegIdx) (b : Word) (s : State) : MulRule d b s (mulInto o d b s) := by
  have hreg : (mulInto o d b s).reg d = s.reg d * b := by rw [mulInto_reg, if_pos rfl]
  rw [MulRule, hreg]
  exact ⟨BitVec.toNat_mul _ _, mulOverflow_eq_true_iff, mulInto_sameRegsBut o d b s, fun _ => rfl,
    mulInto_run o d b s, State.advance_pcPlusFive rfl⟩

theorem divInto_reg_md (o : Byte) (d : RegIdx) (b : Word) (s : State) :
    (divInto o d b s).reg .md = (divResult (s.reg d) b (s.reg .md)).2 := by
  rw [divInto_reg, if_pos rfl]

theorem divInto_reg_of_ne_md (o : Byte) {d : RegIdx} (hd : d ≠ .md) (b : Word) (s : State) :
    (divInto o d b s).reg d = (divResult (s.reg d) b (s.reg .md)).1 := by
  rw [divInto_reg, if_neg hd, if_pos rfl]

theorem divInto_divRule (o : Byte) (d : RegIdx) (b : Word) (s : State) : DivRule d b s (divInto o d b s) := by
  refine ⟨fun hb => ?quotient, fun hb => ?zero, divInto_sameRegsBut o d b s, fun _ => rfl, divInto_run o d b s,
    State.advance_pcPlusFive rfl⟩
  case quotient =>
    have hne : b ≠ 0 := fun h => hb (congrArg BitVec.toNat h)
    rw [divInto_reg_md, divInto_ofl, divResult_of_ne hne]
    refine ⟨fun hd => ?_, BitVec.toNat_umod, decide_eq_false hb⟩
    rw [divInto_reg_of_ne_md o hd, divResult_of_ne hne]
    exact BitVec.toNat_udiv
  case zero =>
    obtain rfl : b = 0 := BitVec.eq_of_toNat_eq hb
    rw [divInto_reg_md, divResult_zero]
    refine ⟨fun hd => ?_, rfl, rfl⟩
    rw [divInto_reg_of_ne_md o hd, divResult_zero]

/-! ### Shifts (R100 to R103) -/

theorem combineInto_shrRule (d : RegIdx) (n : Word) (s : State) : ShrRule d n s (combineInto shiftRight d n s) := by
  refine ⟨?_, combineInto_onlyRegs _ d n s⟩
  rw [combineInto_reg_self]
  exact shiftRight_toNat (s.reg d) n

theorem combineInto_shlRule (d : RegIdx) (n : Word) (s : State) : ShlRule d n s (combineInto shiftLeft d n s) := by
  refine ⟨?_, combineInto_onlyRegs _ d n s⟩
  rw [combineInto_reg_self]
  exact shiftLeft_toNat (s.reg d) n

/-! ### The obligations -/

/-- Settles O33: each form leaves in OFL the sign-bit condition, which is the signed range. -/
theorem overflowFlagIsSignedRange : Obligations.OverflowFlagIsSignedRange := by
  intro d r imm s t hd hr
  refine ⟨fun h => ?add, fun h => ?adi, fun h => ?sub, fun h => ?subi⟩ <;> cases effect_of_exec h
  case add => exact addOverflow_iff_outsideSigned _ _
  case adi => exact addOverflow_iff_outsideSigned _ _
  case sub => exact subOverflow_iff_outsideSigned _ _
  case subi => exact subOverflow_iff_outsideSigned _ _

/-- Settles O34: both forms are one multiplication, or the check of the register words stops. -/
theorem mulMuliKeepLowHalfOfProduct : Obligations.MulMuliKeepLowHalfOfProduct := by
  intro d r imm s
  refine ⟨decode_assemble 0x0B d r, decode_assemble 0x0C d imm, fun hd hr => ?regForm, fun hd => ?immForm,
    withRegs_stopsOnBadRegister d r _, withReg_stopsOnBadRegister d _⟩
  case regForm => exact ⟨_, withRegs_of_lt hd hr _, mulInto_mulRule _ _ _ s⟩
  case immForm => exact ⟨_, withReg_of_lt hd _, mulInto_mulRule _ _ imm s⟩

/-- Settles O35: both forms are one division, or the check of the register words stops. -/
theorem divDiviSetQuotientAndRemainder : Obligations.DivDiviSetQuotientAndRemainder := by
  intro d r imm s
  refine ⟨decode_assemble 0x0D d r, decode_assemble 0x0E d imm, fun hd hr => ?regForm, fun hd => ?immForm,
    withRegs_stopsOnBadRegister d r _, withReg_stopsOnBadRegister d _⟩
  case regForm => exact ⟨_, withRegs_of_lt hd hr _, divInto_divRule _ _ _ s⟩
  case immForm => exact ⟨_, withReg_of_lt hd _, divInto_divRule _ _ imm s⟩

/-- Settles O39: both forms are one combination with the right shift. -/
theorem shrShriShiftRight : Obligations.ShrShriShiftRight := by
  intro d r imm s
  refine ⟨decode_assemble 0x15 d r, decode_assemble 0x16 d imm, fun hd hr => ?regForm, fun hd => ?immForm,
    withRegs_stopsOnBadRegister d r _, withReg_stopsOnBadRegister d _⟩
  case regForm => exact ⟨_, withRegs_of_lt hd hr _, combineInto_shrRule _ _ s⟩
  case immForm => exact ⟨_, withReg_of_lt hd _, combineInto_shrRule _ imm s⟩

/-- Settles O40: both forms are one combination with the left shift. -/
theorem shlShliShiftLeft : Obligations.ShlShliShiftLeft := by
  intro d r imm s
  refine ⟨decode_assemble 0x17 d r, decode_assemble 0x18 d imm, fun hd hr => ?regForm, fun hd => ?immForm,
    withRegs_stopsOnBadRegister d r _, withReg_stopsOnBadRegister d _⟩
  case regForm => exact ⟨_, withRegs_of_lt hd hr _, combineInto_shlRule _ _ s⟩
  case immForm => exact ⟨_, withReg_of_lt hd _, combineInto_shlRule _ imm s⟩

end Sys2Proof.Machine
end

section
/-! SUPPORT. Proofs of the stack family (spec/42_stack.md): one push, one pop, a pop after a push, and the words that
any number of pushes leaves on the stack. -/

namespace Sys2Proof.Machine

open Sys2Proof Sys2Proof.Claims

/-! ### One push and one pop (R111 to R114) -/

theorem pushWord_storesWord (v : Word) (s : State) : StoresWord (pushSlot s) v s (pushWord v s).advance :=
  s.write16_storesWord (pushSlot s) v

theorem pushWord_pushRule (v : Word) (s : State) : PushRule v s (pushWord v s).advance := by
  refine ⟨pushSlot_toNat s, pushWord_storesWord v s, ?sp, pushWord_sameRegsBut v s, ⟨rfl, rfl, rfl⟩, rfl,
    State.advance_pcPlusFive rfl⟩
  case sp =>
    rw [State.advance_reg, pushWord_sp, Word.sub_toNat]
    show ((s.reg .sp).toNat + 65534) % 65536 = _
    rfl

theorem popSlot_eq (s : State) : popSlot s = s.reg .sp + 1 := by
  simp only [popSlot, stackBias]
  bv_omega

theorem popInto_sp_toNat (d : RegIdx) {s : State} (hsp : (s.reg .sp).toNat + 2 ≤ 0xFFFF) :
    ((popInto d s).advance.reg .sp).toNat = (s.reg .sp).toNat + 2 := by
  rw [State.advance_reg, popInto_sp, BitVec.toNat_add]
  exact Nat.mod_eq_of_lt (Nat.lt_succ_of_le hsp)

theorem popInto_onlyRegs (d : RegIdx) (s : State) : OnlyRegs [d, .sp] s (popInto d s).advance :=
  ⟨popInto_sameRegsBut d s, ⟨rfl, rfl, rfl⟩, fun _ => rfl, rfl, State.advance_pcPlusFive rfl⟩

theorem popInto_reg_self {d : RegIdx} (hd : d ≠ .sp) (s : State) :
    (popInto d s).advance.reg d = s.read16 (s.reg .sp + 1) := by
  rw [State.advance_reg, popInto_reg_of_ne d s hd, if_pos rfl, popSlot_eq]

/-! ### A pop right after a push (R110) -/

theorem pushWord_sp_add_two (v : Word) (s : State) : (pushWord v s).advance.reg .sp + 2 = s.reg .sp := by
  rw [State.advance_reg, pushWord_sp, BitVec.sub_add_cancel]

/-- The pop reads the slot that the push wrote. -/
theorem pushWord_read16_slot (v : Word) (s : State) :
    (pushWord v s).advance.read16 ((pushWord v s).advance.reg .sp + 1) = v := by
  have hslot : (pushWord v s).advance.reg .sp + 1 = pushSlot s := by
    rw [State.advance_reg, pushWord_sp]
    simp only [pushSlot, stackBias]
    bv_omega
  rw [hslot]
  exact s.write16_read16_self (pushSlot s) v

theorem pushWord_sp_toNat (v : Word) {s : State} (hsp : 2 ≤ (s.reg .sp).toNat) :
    ((pushWord v s).advance.reg .sp).toNat + 2 = (s.reg .sp).toNat := by
  have hlt := (s.reg .sp).isLt
  rw [State.advance_reg, pushWord_sp, Word.sub_toNat]
  show ((s.reg .sp).toNat + 65536 - 2) % 65536 + 2 = _
  omega

/-! ### The words on the stack (R116) -/

/-- The words `ws` stand above `sp`, the top of the stack first, each big-endian. -/
def StackHolds (m : Memory) : Nat → List Word → Prop
  | _, [] => True
  | sp, w :: ws =>
    Memory.read m (sp + 1) = highByte w ∧ Memory.read m (sp + 2) = lowByte w ∧ StackHolds m (sp + 2) ws

theorem StackHolds.congr {m m' : Memory} {sp : Nat} {ws : List Word} (h : StackHolds m sp ws)
    (heq : ∀ x, sp < x → Memory.read m' x = Memory.read m x) : StackHolds m' sp ws := by
  induction ws generalizing sp with
  | nil => trivial
  | cons w ws ih =>
    obtain ⟨hhigh, hlow, hrest⟩ := h
    refine ⟨?_, ?_, ih hrest fun x hx => heq x (by omega)⟩
    · rw [heq _ (by omega), hhigh]
    · rw [heq _ (by omega), hlow]

theorem StackHolds.getElem {m : Memory} {sp : Nat} {ws : List Word} (h : StackHolds m sp ws) {j : Nat}
    (hj : j < ws.length) :
    Memory.read m (sp + 2 * j + 1) = highByte ws[j] ∧ Memory.read m (sp + 2 * j + 2) = lowByte ws[j] := by
  induction ws generalizing sp j with
  | nil => exact absurd hj (Nat.not_lt_zero j)
  | cons w ws ih =>
    obtain ⟨hhigh, hlow, hrest⟩ := h
    cases j with
    | zero => exact ⟨hhigh, hlow⟩
    | succ j =>
      have hadd : sp + 2 * (j + 1) = sp + 2 + 2 * j := by omega
      rw [hadd]
      exact ih hrest (Nat.lt_of_succ_lt_succ hj)

/-- A push that does not wrap R9 puts its word on top of the stack. -/
theorem StackHolds.push {s : State} {ws : List Word} (h : StackHolds s.mem (s.reg .sp).toNat ws)
    (hsp : 2 ≤ (s.reg .sp).toNat) (v : Word) :
    StackHolds (pushWord v s).advance.mem ((pushWord v s).advance.reg .sp).toNat (v :: ws) := by
  have hlt := (s.reg .sp).isLt
  have hsp' := pushWord_sp_toNat v hsp
  have hslot : (pushSlot s).toNat = ((pushWord v s).advance.reg .sp).toNat + 1 := by
    rw [pushSlot_toNat]; omega
  obtain ⟨hhigh, hlow, hrest⟩ := pushWord_storesWord v s
  have hlow_at : ((pushSlot s).toNat + 1) % 65536 = ((pushWord v s).advance.reg .sp).toNat + 2 := by omega
  rw [hslot] at hhigh
  rw [hlow_at] at hlow
  refine ⟨BitVec.eq_of_toNat_eq (hhigh.trans (highByte_toNat v).symm),
    BitVec.eq_of_toNat_eq (hlow.trans (lowByte_toNat v).symm), ?_⟩
  rw [hsp']
  exact h.congr fun x hx => hrest x (by omega) (by omega)

theorem Word.add_one_toNat {a : Word} (h : a.toNat + 1 ≤ 0xFFFF) : (a + 1).toNat = a.toNat + 1 :=
  (BitVec.toNat_add a 1).trans (Nat.mod_eq_of_lt (Nat.lt_succ_of_le h))

/-- The word on top of the stack is what a pop reads. -/
theorem StackHolds.read16 {s : State} {w : Word} {ws : List Word}
    (h : StackHolds s.mem (s.reg .sp).toNat (w :: ws)) (hsp : (s.reg .sp).toNat + 2 ≤ 0xFFFF) :
    s.read16 (s.reg .sp + 1) = w := by
  obtain ⟨hhigh, hlow, -⟩ := h
  have h1 : (s.reg .sp + 1).toNat = (s.reg .sp).toNat + 1 := Word.add_one_toNat (by omega)
  have h2 : (s.reg .sp + 1 + 1).toNat = (s.reg .sp).toNat + 2 := by rw [Word.add_one_toNat (by omega), h1]
  rw [State.read16, State.byte_eq_read, State.byte_eq_read, h1, h2, hhigh, hlow, joinBytes_highByte_lowByte]

/-! ### Any number of pushes and pops -/

theorem exec_of_isPush {i : Instr} (hi : IsPush i) (s : State) :
    ∃ v, pushedValue i s = some v ∧ exec i s = .next (pushWord v s).advance := by
  rcases hi with ⟨imm, rfl⟩ | ⟨w, hw, rfl⟩
  · exact ⟨imm, rfl, rfl⟩
  · exact ⟨_, dif_pos hw, withReg_of_lt hw _⟩

/-- Pushes that do not wrap R9 leave their values on the stack, the last on top, over what stood there. -/
theorem pushAll_stackHolds {is : List Instr} (his : ∀ i ∈ is, IsPush i) {s : State} {ws : List Word}
    (h : StackHolds s.mem (s.reg .sp).toNat ws) (hroom : 2 * is.length ≤ (s.reg .sp).toNat) :
    ∃ vs t, pushAll is s = some (vs, t) ∧ vs.length = is.length ∧
      (t.reg .sp).toNat + 2 * vs.length = (s.reg .sp).toNat ∧
      StackHolds t.mem (t.reg .sp).toNat (vs.reverse ++ ws) := by
  induction is generalizing s ws with
  | nil => exact ⟨[], s, rfl, rfl, rfl, h⟩
  | cons i is ih =>
    rw [List.length_cons] at hroom
    obtain ⟨v, hv, hexec⟩ := exec_of_isPush (his i List.mem_cons_self) s
    have hsp := pushWord_sp_toNat v (s := s) (by omega)
    obtain ⟨vs, t, hpush, hlen, hspt, hholds⟩ := ih (fun i hi => his i (List.mem_cons_of_mem _ hi))
      (h.push (by omega) v) (by omega)
    refine ⟨v :: vs, t, ?_, congrArg Nat.succ hlen, ?_, ?_⟩
    · simp only [pushAll, hv, hexec, hpush, Option.map_some]
    · rw [List.length_cons]; omega
    · rwa [List.reverse_cons, List.append_assoc]

/-- Pops that do not underflow, into registers other than R9, return the words on the stack, the top first. -/
theorem popAll_of_stackHolds {ds ws : List Word} (hds : ∀ d ∈ ds, d.toNat < 9) (hlen : ds.length = ws.length)
    {s : State} (h : StackHolds s.mem (s.reg .sp).toNat ws) (hroom : (s.reg .sp).toNat + 2 * ws.length ≤ 0xFFFF) :
    ∃ u, popAll ds s = some (ws, u) ∧ (u.reg .sp).toNat = (s.reg .sp).toNat + 2 * ws.length := by
  induction ds generalizing s ws with
  | nil =>
    obtain rfl := List.length_eq_zero_iff.mp hlen.symm
    exact ⟨s, rfl, rfl⟩
  | cons d ds ih =>
    obtain ⟨w, ws, rfl⟩ := List.exists_cons_of_length_eq_add_one hlen.symm
    simp only [List.length_cons] at hroom hlen
    have hd9 := hds d List.mem_cons_self
    have hd : d.toNat < 10 := by omega
    have hne : ix d hd ≠ .sp := fun heq => absurd (congrArg Fin.val heq) (Nat.ne_of_lt hd9)
    have hle : (s.reg .sp).toNat + 2 ≤ 0xFFFF := by omega
    have hsp := popInto_sp_toNat (ix d hd) hle
    have hval := (popInto_reg_self hne s).trans (h.read16 hle)
    obtain ⟨-, -, hrest⟩ := h
    obtain ⟨u, hpop, hu⟩ := ih (s := (popInto (ix d hd) s).advance) (fun d hd => hds d (List.mem_cons_of_mem _ hd))
      (Nat.succ.inj hlen) (by rwa [hsp]) (by omega)
    refine ⟨u, ?_, by rw [List.length_cons]; omega⟩
    simp only [popAll, execPop_of_le hd hle, dif_pos hd, hpop, Option.map_some, hval]

/-! ### The obligations -/

/-- Settles O42: one word is pushed, the value that the named register holds before. -/
theorem pushStoresRegisterBelowStackPointer : Obligations.PushStoresRegisterBelowStackPointer := by
  intro r x s
  exact ⟨decode_assemble 0x1A r x, fun hr => ⟨_, withReg_of_lt hr _, pushWord_pushRule _ s⟩,
    withReg_stopsOnBadRegister r _⟩

/-- Settles O43: one word is pushed, and nothing is checked before. -/
theorem ipushStoresImmediateBelowStackPointer : Obligations.IpushStoresImmediateBelowStackPointer := by
  intro imm x s
  exact ⟨decode_assemble 0x1B imm x, _, rfl, pushWord_pushRule imm s⟩

/-- Settles O44: the register check, then the underflow check, then the pop. -/
theorem popLoadsWordAboveStackPointer : Obligations.PopLoadsWordAboveStackPointer := by
  intro d x s
  refine ⟨decode_assemble 0x1C d x, fun hd hsp => ?completes, fun hd => execPop_of_gt hd,
    withReg_stopsOnBadRegister d _⟩
  refine ⟨_, execPop_of_le hd hsp, fun hne => ?_, popInto_sp_toNat _ hsp, popInto_onlyRegs _ s⟩
  rw [popInto_reg_self hne, State.read16_toNat]

/-- Settles O45: R9 is back where it was, and the pop reads the slot of the push; R9 below 2 was wrapped by the push. -/
theorem popUndoesPush : Obligations.PopUndoesPush := by
  intro r d s t hr hd h
  cases effect_of_exec h
  refine ⟨fun hsp => ?completes, fun hsp => ?underflows⟩
  case completes =>
    have hle := pushWord_sp_toNat (s.reg ⟨r.toNat, hr⟩) hsp
    have hlt := (s.reg .sp).isLt
    refine ⟨_, execPop_of_le hd (by omega), ?_, fun hne => ?_, fun q hsp' hq => ?_⟩
    · rw [State.advance_reg, popInto_sp]; exact pushWord_sp_add_two _ s
    · rw [popInto_reg_self hne]; exact pushWord_read16_slot _ s
    · rw [State.advance_reg, popInto_reg_of_ne _ _ hsp', if_neg hq]; exact pushWord_reg_of_ne _ s hsp'
  case underflows =>
    refine execPop_of_gt hd ?_
    rw [State.advance_reg, pushWord_sp, Word.sub_toNat]
    show 0xFFFF < ((s.reg .sp).toNat + 65536 - 2) % 65536 + 2
    omega

/-- Settles O46: the pushes build a stack with the last value on top, and the pops take it down. -/
theorem pushesFillDownwardAndPopInReverse : Obligations.PushesFillDownwardAndPopInReverse := by
  intro is ds s hsp his hds hlen hroom
  have hspNat : (s.reg .sp).toNat = 0xFFFF := congrArg BitVec.toNat hsp
  obtain ⟨vs, t, hpush, hvs, hspt, hholds⟩ :=
    pushAll_stackHolds his (s := s) (ws := []) trivial (by omega)
  rw [List.append_nil] at hholds
  have hrev : vs.reverse.length = vs.length := List.length_reverse
  obtain ⟨u, hpop, hspu⟩ := popAll_of_stackHolds hds (by omega) hholds (by omega)
  refine ⟨vs, t, hpush, hvs, by omega, fun k hk => ?slot, u, hpop, BitVec.eq_of_toNat_eq ?_⟩
  case slot =>
    have hj : vs.length - 1 - k < vs.reverse.length := by omega
    have hslot := hholds.getElem hj
    have hval : vs.reverse[vs.length - 1 - k] = vs[k] := by
      rw [List.getElem_reverse]
      congr 1
      omega
    have haddr : (t.reg .sp).toNat + 2 * (vs.length - 1 - k) = 0xFFFF - 2 * (k + 1) := by omega
    rwa [hval, haddr] at hslot
  · rw [hspu]
    show _ = 0xFFFF
    omega

end Sys2Proof.Machine
end

section
/-! SUPPORT. Proofs of the flow control family (spec/43_flow_controls.md), second part: CMP and the jumps after it, HLT
and DBGP. -/

namespace Sys2Proof.Machine

open Sys2Proof Sys2Proof.Claims

/-! ### What CMP writes, and the jumps to an aligned target -/

@[simp] theorem same_eq_true_iff {a b : Word} : same a b = true ↔ a = b := decide_eq_true_iff

/-- A conditional jump to an aligned target never stops (R127). -/
theorem branch_of_aligned {target : Word} (h5 : target.toNat % 5 = 0) (c : Bool) (s : State) :
    branch c target s = .next (if c then s.setPc target else s.advance) := by
  cases c with
  | false => rfl
  | true => exact if_pos h5

/-! ### The obligations -/

/-- Settles O50: both register words are good and ZFL and CFL are assigned, or the check of the words stops. -/
theorem cmpSetsZeroAndCarry : Obligations.CmpSetsZeroAndCarry := by
  intro a b s
  refine ⟨decode_assemble 0xF2 a b, fun ha hb => ?effect, withRegs_stopsOnBadRegister a b _⟩
  exact ⟨_, withRegs_of_lt ha hb _, same_eq_true_iff, borrow_eq_true_iff, rfl, fun _ _ => rfl, fun _ => rfl, rfl,
    State.advance_pcPlusFive rfl⟩

/-- Settles O54: CMP leaves equality in ZFL and unsigned less-than in CFL, on which the jumps branch. -/
theorem jumpsAfterCompare : Obligations.JumpsAfterCompare := by
  intro a b target s t ha hb h5 h
  obtain ⟨-, hcmp, -⟩ := cmpSetsZeroAndCarry a b s
  obtain ⟨t', ht', hz, hc, -⟩ := hcmp ha hb
  obtain rfl : t' = t := Host.Outcome.next.inj (ht'.symm.trans h)
  refine ⟨?ifeq, ?iflt, ?ifgt⟩
  case ifeq => simp only [exec, execIfeq, branch_of_aligned h5, hz]
  case iflt => simp only [exec, execIflt, branch_of_aligned h5, hc]
  case ifgt => simp only [exec, execIfgt, branch_of_aligned h5, Bool.not_eq_true', ← Bool.not_eq_true, hc, ite_not]

/-- Settles O47: HLT writes the run state alone. -/
theorem hltHaltsAndKeepsPc : Obligations.HltHaltsAndKeepsPc := by
  intro a b s
  exact ⟨decode_assemble 0xF0 a b, _, rfl, s.setRun_run .halted, s.setRun_pc .halted,
    fun q _ => s.setRun_reg .halted q, ⟨rfl, rfl, rfl⟩, fun _ => rfl⟩

/-- Settles O48: DBGP writes the run state and moves pc on. -/
theorem dbgpPausesAndAdvancesPc : Obligations.DbgpPausesAndAdvancesPc := by
  intro a b s
  exact ⟨decode_assemble 0xFF a b, _, rfl, rfl, State.advance_pcPlusFive (s.setRun_pc .paused),
    fun q _ => s.setRun_reg .paused q, ⟨rfl, rfl, rfl⟩, fun _ => rfl⟩

end Sys2Proof.Machine
end
